-- ==== Sys2Proof/Word.lean ====
section
/-! DEFINITION. The widths of the block (rules R13, R14): a byte lane of the host port, a 16-bit
element (`XMEM`, `YMEM`) and a 32-bit element (registers, `RMEM`, the state cells, command words). -/

namespace Sys2Proof

/-- One byte lane of the host port (R65). -/
abbrev Byte := BitVec 8

/-- A 16-bit element: a sample of `XMEM` or `YMEM` as a bit pattern (R66). -/
abbrev Half := BitVec 16

/-- A 32-bit element: a register, a coefficient, a state cell or a command word (R13, R66). -/
abbrev Word := BitVec 32

end Sys2Proof
end

