-- ==== Sys2Proof/Syntax.lean ====
section
/-! DEFINITION. The commands of the block, the analogue of instructions (rules R2, R90, R98): one
constructor per row of spec/opcode_table.json. The fields are unsigned integers (rule R97). -/

namespace Sys2Proof

/-- The nine commands. -/
inductive Instr where
  /-- `ACORR n, order` (R140), format A. -/
  | acorr (n order : Nat)
  /-- `DECIM n, ctx` (R170), format D. -/
  | decim (n ctx : Nat)
  /-- `APINIT ctx` (R200), format I. -/
  | apinit (ctx : Nat)
  /-- `ACORRV n, order` (R150), format A. -/
  | acorrv (n order : Nat)
  /-- `SADD32` (R130), format H. -/
  | sadd32
  /-- `SADD16` (R131), format H. -/
  | sadd16
  /-- `TRUNC16` (R132), format H. -/
  | trunc16
  /-- `MULRS16` (R133), format H. -/
  | mulrs16
  /-- `CLZ32` (R134), format H. -/
  | clz32
deriving DecidableEq, Repr

end Sys2Proof
end

