-- ==== Sys2Proof/WellFormed.lean ====
section
/-! DEFINITION. Which terms of `Instr` are commands: every field fits the bits the command word gives
it (rules R92 to R95, R97). Values a field can hold but the block cannot accept are NOT excluded
here; they are precondition errors raised by the command (rule R97). -/

namespace Sys2Proof

/-- `N` has 16 bits (R92, R93, R97). -/
abbrev fitsN (n : Nat) : Bool := decide (n < 65536)

/-- `ORDER` has 12 bits (R92, R97). -/
abbrev fitsOrder (order : Nat) : Bool := decide (order < 4096)

/-- `CTX` has 8 bits (R93, R94, R97). -/
abbrev fitsCtx (ctx : Nat) : Bool := decide (ctx < 256)

/-- Every field of the command fits its bits. -/
def Instr.wellFormed : Instr → Bool
  | .acorr n order => fitsN n && fitsOrder order
  | .decim n ctx => fitsN n && fitsCtx ctx
  | .apinit ctx => fitsCtx ctx
  | .acorrv n order => fitsN n && fitsOrder order
  | .sadd32 => true
  | .sadd16 => true
  | .trunc16 => true
  | .mulrs16 => true
  | .clz32 => true

end Sys2Proof
end

