-- ==== Sys2Proof/Decode.lean ====
section
/-! DEFINITION. The command word (30_encoding.md): bit fields, the decoder, which is total on 32-bit
words and rejects by name (rules R96 to R102), and the encoder (rules R92 to R95, R98, R104). -/

namespace Sys2Proof

/-- `w[hi:lo]` as an unsigned integer (R13, R97). -/
def field (w : Word) (hi lo : Nat) : Nat := w.toNat / 2 ^ lo % 2 ^ (hi - lo + 1)

/-- The must-be-zero fields of formats D, I and H (R93 to R95, R100). -/
inductive MustBeZero where
  /-- Bits 27:24 of formats D and I. -/
  | zero4
  /-- Bits 15:0 of format I. -/
  | zero16
  /-- Bits 27:0 of format H. -/
  | zero28
deriving DecidableEq, Repr

/-- Why a word is illegal (R96 steps 2 and 3). -/
inductive IllegalWord where
  /-- The opcode is not in the map (R99). -/
  | reservedOpcode (opc : Nat)
  /-- A must-be-zero field is not zero (R100). -/
  | nonZero (f : MustBeZero)
deriving DecidableEq, Repr

/-- What a word decodes to. -/
inductive Decoded where
  /-- One of the nine commands. -/
  | command (i : Instr)
  /-- Illegal; it executes as `raise CmdError(E_ILLEGAL)` (R96). -/
  | illegal (why : IllegalWord)
deriving DecidableEq, Repr

/-- Format H: the 28 bits below the opcode must be zero (R95, R100). -/
def decodeH (w : Word) (i : Instr) : Decoded :=
  if field w 27 0 = 0 then .command i else .illegal (.nonZero .zero28)

/-- Format D (R93). -/
def decodeD (w : Word) : Decoded :=
  if field w 27 24 = 0 then .command (.decim (field w 15 0) (field w 23 16))
  else .illegal (.nonZero .zero4)

/-- Format I (R94). -/
def decodeI (w : Word) : Decoded :=
  if field w 27 24 = 0 then
    if field w 15 0 = 0 then .command (.apinit (field w 23 16))
    else .illegal (.nonZero .zero16)
  else .illegal (.nonZero .zero4)

/-- Decoding (R96 steps 1, 2, 3 and 5), total on 32-bit words. Step 4, `ACORRV` on a block with
`LANES = 1`, depends on the configuration and is checked first by the meaning of `ACORRV` (R150). -/
def decodeWord (w : Word) : Decoded :=
  match field w 31 28 with
  | 0x1 => .command (.acorr (field w 15 0) (field w 27 16))
  | 0x2 => decodeD w
  | 0x3 => decodeI w
  | 0x4 => .command (.acorrv (field w 15 0) (field w 27 16))
  | 0x8 => decodeH w .sadd32
  | 0x9 => decodeH w .sadd16
  | 0xA => decodeH w .trunc16
  | 0xB => decodeH w .mulrs16
  | 0xC => decodeH w .clz32
  | opc => .illegal (.reservedOpcode opc)

/-- The opcode field `OPC` of a command (R98). -/
def Instr.opc : Instr → Nat
  | .acorr _ _ => 0x1
  | .decim _ _ => 0x2
  | .apinit _ => 0x3
  | .acorrv _ _ => 0x4
  | .sadd32 => 0x8
  | .sadd16 => 0x9
  | .trunc16 => 0xA
  | .mulrs16 => 0xB
  | .clz32 => 0xC

/-- The 28 bits below the opcode: the formats A, D, I and H (R92 to R95). -/
def Instr.operandBits : Instr → Nat
  | .acorr n order => order * 2 ^ 16 + n
  | .decim n ctx => ctx * 2 ^ 16 + n
  | .apinit ctx => ctx * 2 ^ 16
  | .acorrv n order => order * 2 ^ 16 + n
  | .sadd32 => 0
  | .sadd16 => 0
  | .trunc16 => 0
  | .mulrs16 => 0
  | .clz32 => 0

/-- The word of a command (R104, column Encoding). -/
def encode (i : Instr) : Word := BitVec.ofNat 32 (i.opc * 2 ^ 28 + i.operandBits)

/-- Column `match` of the opcode map (R98). -/
def Instr.matchBits : Instr → Word
  | .acorr _ _ => 0x10000000
  | .decim _ _ => 0x20000000
  | .apinit _ => 0x30000000
  | .acorrv _ _ => 0x40000000
  | .sadd32 => 0x80000000
  | .sadd16 => 0x90000000
  | .trunc16 => 0xA0000000
  | .mulrs16 => 0xB0000000
  | .clz32 => 0xC0000000

/-- Column `mask` of the opcode map (R98). -/
def Instr.maskBits : Instr → Word
  | .acorr _ _ => 0xF0000000
  | .decim _ _ => 0xFF000000
  | .apinit _ => 0xFF00FFFF
  | .acorrv _ _ => 0xF0000000
  | .sadd32 => 0xFFFFFFFF
  | .sadd16 => 0xFFFFFFFF
  | .trunc16 => 0xFFFFFFFF
  | .mulrs16 => 0xFFFFFFFF
  | .clz32 => 0xFFFFFFFF

/-- The command a decoded word stands for, if any. -/
def Decoded.instr? : Decoded → Option Instr
  | .command i => some i
  | .illegal _ => none

/-- The command the decoder reads from the low `nbits` bits of `w`, the bits above being zero. A
command is one 32-bit word and is never stored in memory (R78, R90), so there are no words to lay
out; a number that needs more than 32 bits is no command. -/
def decodeTableWord (nbits w : Nat) : Option Instr :=
  if w % 2 ^ nbits < 2 ^ 32 then (decodeWord (BitVec.ofNat 32 (w % 2 ^ nbits))).instr? else none

end Sys2Proof
end

