-- ==== Sys2Proof/Config.lean ====
section
/-! DEFINITION. The implementation parameters of one block (rules R7 to R12, R51) and the free
values, the values the spec calls unspecified (rule R16). The parameters never change while the
block exists; the state carries them as its hardwired part, so that every definition and every
statement takes them as an argument. -/

namespace Sys2Proof

/-- The parameters of R7 to R12. The four coefficients are integers (R11). -/
structure Config where
  /-- `NMAX`, elements of `XMEM` and largest frame length (R7). -/
  nmax : Nat
  /-- `ORDMAX`, largest order; `RMEM` has one element more (R8). -/
  ordmax : Nat
  /-- `NCTX`, number of allpass contexts (R9). -/
  nctx : Nat
  /-- `LANES`, group width of the vectorised summation (R10). -/
  lanes : Nat
  /-- `AP_UPPER[0]` (R11). -/
  apUpper0 : Int
  /-- `AP_UPPER[1]` (R11). -/
  apUpper1 : Int
  /-- `AP_LOWER[0]` (R11). -/
  apLower0 : Int
  /-- `AP_LOWER[1]` (R11). -/
  apLower1 : Int
  /-- `BASE`, host address of the block's first register (R12). -/
  base : Nat
deriving DecidableEq, Repr

/-- The range R11 gives a section coefficient: both `a` and `-a` are signed 16-bit values. -/
abbrev Config.CoefLegal (a : Int) : Prop := -32767 ≤ a ∧ a ≤ 32767

/-- The constraints R7 to R12 put on the parameters. -/
abbrev Config.Legal (c : Config) : Prop :=
  (c.nmax % 4 = 0 ∧ 8 ≤ c.nmax ∧ c.nmax ≤ 32768) ∧
  (c.ordmax ≤ 4095 ∧ c.ordmax < c.nmax) ∧
  (1 ≤ c.nctx ∧ c.nctx ≤ 32) ∧
  (c.lanes = 1 ∨ c.lanes = 4 ∨ c.lanes = 8) ∧
  (Config.CoefLegal c.apUpper0 ∧ Config.CoefLegal c.apUpper1 ∧
    Config.CoefLegal c.apLower0 ∧ Config.CoefLegal c.apLower1) ∧
  c.base % 0x40000 = 0

/-- The spec's defaults (R7 to R11). The coefficients are the general-knowledge defaults of R11
(K1 of 93_implementation_defined.md); the spec gives `BASE` no default, 0 is this model's
(DESIGN CHOICE, notes/assumptions/1.md). -/
def Config.default : Config where
  nmax := 256
  ordmax := 31
  nctx := 2
  lanes := 4
  apUpper0 := 1137
  apUpper1 := 12537
  apLower0 := 5059
  apLower1 := 24379
  base := 0

/-- FREE VALUE (R16, K6): what a byte of `XMEM`, `YMEM` or `RMEM` at offset `a` that nothing has
written since reset holds, as seen by the host operation number `t`. No body: no proof can know
it (notes/assumptions/2.md). -/
opaque Config.unspecifiedByte (t a : Nat) : Byte

/-- FREE VALUE (R16, R43): what the read window of cell `i` of context `c` answers while the context is
not initialised, as seen at host operation number `t`. No body (notes/assumptions/3.md). -/
opaque Config.unspecifiedCell (t c i : Nat) : Word

end Sys2Proof
end

