-- ==== Sys2Proof/Machine/State.lean ====
section
/-! DEFINITION. The state of the block (10_state.md), with the host script that drives it and what
the host last saw at the port; the reasons a step can stop; the state after reset (rule R52). -/

namespace Sys2Proof.Machine

open Sys2Proof

/-- The memories `XMEM`, `YMEM` and `RMEM` as the bytes something has written since reset, by offset
from `BASE` (R70), in little-endian byte lanes (R65). Offsets strictly rise. An unlisted byte has
no written value (`Memory.unlisted`), so no entry can equal it. -/
abbrev Memory := List Host.Cell

/-- One allpass context: `APV[c]` and the cells `APS[c][0..4]` (R40, R41). -/
structure ApContext where
  /-- `APV[c]` (R41). -/
  valid : Bool
  /-- `APS[c][0]`, accumulator of section 0 of the upper filter. -/
  u0 : Word
  /-- `APS[c][1]`, accumulator of section 1 of the upper filter. -/
  u1 : Word
  /-- `APS[c][2]`, accumulator of section 0 of the lower filter. -/
  l0 : Word
  /-- `APS[c][3]`, accumulator of section 1 of the lower filter. -/
  l1 : Word
  /-- `APS[c][4]`, the carry cell. -/
  carry : Word
deriving DecidableEq, Repr

/-- A host operation (R15, R104): an access to the port at a byte offset from `BASE`, or reset. -/
inductive HostOp where
  /-- `MemRead(off, n)` (R62). -/
  | read (off n : Nat)
  /-- `MemWrite(off, n, v)` (R63); a write to `CMD` starts a command (R25). -/
  | write (off n : Nat) (v : Word)
  /-- Reset is asserted (R240). -/
  | reset
deriving DecidableEq, Repr

/-- What the host last received at the port (R62 to R64). -/
inductive PortResponse where
  /-- No access has been made yet. -/
  | quiet
  /-- A write, or reset, completed. -/
  | ack
  /-- A 16-bit element. -/
  | data16 (v : Half)
  /-- A 32-bit element. -/
  | data32 (v : Word)
  /-- `BusError(off)`: the access was refused (R64). -/
  | busError (off : Nat)
deriving DecidableEq, Repr

/-- The architectural state of R20, the parameters of R51 as its hardwired part, and the host's side
of the port (R23: the position `hpc` and the operations still to come belong to the host script). -/
structure State where
  /-- The parameters, hardwired (R33, R34, R36, R51). -/
  cfg : Config
  /-- `STATUS` (R26). -/
  status : Word
  /-- `ESTICKY` (R27). -/
  esticky : Word
  /-- `ECMD` (R28). -/
  ecmd : Word
  /-- `SCALE` (R29). -/
  scale : Word
  /-- `OUTLEN` (R30). -/
  outlen : Word
  /-- `OPA` (R21, R31). -/
  opa : Word
  /-- `OPB` (R21, R31). -/
  opb : Word
  /-- `RES` (R21, R31). -/
  res : Word
  /-- `APS` and `APV` (R40, R41); the block has the contexts below `NCTX`, at most 32 (R9). -/
  ctxs : Vector ApContext 32
  /-- `XMEM`, `YMEM` and `RMEM` (R45 to R47). -/
  mem : Memory
  /-- The host operations not yet performed, next first (R23). -/
  pending : List HostOp
  /-- `hpc`: how many host operations have been performed (R15, R23). It also numbers the free
  values an operation sees (notes/assumptions/2.md). -/
  hpc : Nat
  /-- What the host last received. -/
  resp : PortResponse
deriving DecidableEq, Repr

/-- Reasons the machine stops with a fault. THERE ARE NONE: the spec gives every command and every
host access an effect after which the block goes on. A failed command is recorded and the block
accepts the next one (R216, R217); a refused access changes nothing and the host receives an error
response (R64). Nothing raises a fault, which is neither safe nor unsafe. -/
inductive Fault where
deriving DecidableEq, Repr

/-- Reasons a step is refused. -/
inductive Refusal where
  /-- Raised by an arm of `exec` whose command has no meaning yet; no arm does. Safe: nothing can be
  proved of such a command. -/
  | notModelled (mnemonic : String)
deriving DecidableEq, Repr

/-- A context that is not initialised, as reset leaves it: `APV[c] = 0` (R52). The spec states no value
for the cells; 0 is this model's (DESIGN CHOICE, notes/assumptions/3.md) and nothing ever sees it:
the read window answers a free value (R43), `DECIM` refuses the context (R171), `APINIT` writes all
five cells (R201). -/
def ApContext.uninitialised : ApContext where
  valid := false
  u0 := 0
  u1 := 0
  l0 := 0
  l1 := 0
  carry := 0

/-- The block right after reset with parameters `cfg` (R52, R240), before any host operation. -/
def State.resetWith (cfg : Config) : State where
  cfg := cfg
  status := 0
  esticky := 0
  ecmd := 0
  scale := 0
  outlen := 0
  opa := 0
  opb := 0
  res := 0
  ctxs := Vector.replicate 32 ApContext.uninitialised
  mem := []
  pending := []
  hpc := 0
  resp := .quiet

/-- The machine right after reset, with the default parameters and an empty host script. -/
def State.reset : State := State.resetWith Config.default

end Sys2Proof.Machine
end

