-- ==== Sys2Proof/Machine/Fixed.lean ====
section
/-! DEFINITION. The fixed-point primitives (40_fixed_point_helpers.md, rules R120 to R128), total
functions on mathematical integers. -/

namespace Sys2Proof.Machine

open Sys2Proof

/-- Arithmetic right shift, `floor(v / 2^k)` (R120). -/
def asr (v : Int) (k : Nat) : Int := v / 2 ^ k

/-- Clamp to `int32` (R121). -/
def sat32 (v : Int) : Int :=
  if v < -2 ^ 31 then -2 ^ 31 else if v > 2 ^ 31 - 1 then 2 ^ 31 - 1 else v

/-- Clamp to `int16` (R122). -/
def sat16 (v : Int) : Int :=
  if v < -32768 then -32768 else if v > 32767 then 32767 else v

/-- Saturating 32-bit addition (R123). -/
def satAdd32 (a b : Int) : Int := sat32 (a + b)

/-- Saturating 16-bit addition (R124). -/
def satAdd16 (a b : Int) : Int := sat16 (a + b)

/-- The low 16 bits as a signed number (R125); it wraps. -/
def trunc16 (v : Int) : Int := (BitVec.ofInt 16 v).toInt

/-- The exact signed product shifted right by 16 (R126). -/
def mulrs16 (s c : Int) : Int := asr (s * c) 16

/-- Position of the highest 1 bit plus one, 0 for 0 (R127). -/
def bitLength (u : Nat) : Nat := if u = 0 then 0 else Nat.log2 u + 1

/-- Leading zero bits of a 32-bit value (R127); 32 for 0. -/
def clz32 (u : Nat) : Nat := 32 - bitLength u

/-- The low 32 bits of an integer as a `uint32` (R14). -/
def zext32 (v : Int) : Nat := (BitVec.ofInt 32 v).toNat

/-- The shared scale derived from the lag-0 energy (R128). -/
def scaleOf (p : Int) : Nat :=
  let t := zext32 (asr p 31)
  if t = 0 then 0 else 32 - clz32 t

end Sys2Proof.Machine
end

