-- ==== Sys2Proof/Machine/Flags.lean ====
section
/-! DEFINITION. The status the block keeps. There are no arithmetic flags and no saturation flag
(rule R24); what there is: the result code, the sticky error set and the context valid bits
(rules R26, R27, R35, R211). -/

namespace Sys2Proof.Machine

open Sys2Proof

/-- The causes of `CmdError` (R211). -/
inductive ErrorCode where
  /-- `E_ILLEGAL`. -/
  | illegal
  /-- `E_CTX`. -/
  | ctx
  /-- `E_LEN`. -/
  | len
  /-- `E_ORDER`. -/
  | order
  /-- `E_UNINIT`. -/
  | uninit
deriving DecidableEq, Repr

/-- The number of a code in `STATUS.CODE` and its bit in `ESTICKY` (R211). -/
def ErrorCode.number : ErrorCode → Nat
  | .illegal => 1
  | .ctx => 2
  | .len => 3
  | .order => 4
  | .uninit => 5

/-- The bit `1 << code` of `ESTICKY` (R27, R216). -/
def ErrorCode.stickyBit (e : ErrorCode) : Word := BitVec.ofNat 32 (2 ^ e.number)

/-- Field `CODE` of `STATUS` (R26). -/
def State.code (s : State) : Nat := s.status.toNat % 16

/-- `STATUS.CODE <- code`; the bits above `CODE` read as zero (R26). -/
def statusWord (code : Nat) : Word := BitVec.ofNat 32 code

/-- The view `APVALID` of the valid bits: bit `c` is `APV[c]` for `c < NCTX`, the others 0 (R35). -/
def apvalidWord (nctx : Nat) (ctxs : Vector ApContext 32) : Word :=
  BitVec.ofFnLE fun c : Fin 32 => decide (c.val < nctx) && ctxs[c].valid

end Sys2Proof.Machine
end

