-- ==== Sys2Proof/Machine/Ops.lean ====
section
/-! DEFINITION. The named operations over memory, contexts and registers; raising an error, the
block's only exception, and completing a command (rules R107, R216, R217); the reset of the block
(rule R240). -/

namespace Sys2Proof.Machine

open Sys2Proof

/-- What a byte nothing has written reads as: no value. A command or a host read that needs one
takes a free value (`State.loadByte`). -/
def Memory.unlisted : Option Byte := none

/-- The written value of the byte at offset `a`, if any. -/
def Memory.find : Memory → Nat → Option Byte
  | [], _ => Memory.unlisted
  | (k, v) :: rest, a => if a = k then some v else Memory.find rest a

/-- Write one byte, keeping the offsets strictly rising. -/
def Memory.set : Memory → Nat → Byte → Memory
  | [], a, b => [(a, b)]
  | (k, v) :: rest, a, b =>
    if a < k then (a, b) :: (k, v) :: rest
    else if a = k then (a, b) :: rest
    else (k, v) :: Memory.set rest a b

/-- The canonical form: offsets strictly rise. -/
abbrev Memory.wf (m : Memory) : Prop := m.Pairwise fun p q => p.1 < q.1

/-- Write a 16-bit element at offset `a`, little-endian byte lanes (R65). -/
def Memory.store16 (m : Memory) (a : Nat) (v : Half) : Memory :=
  (m.set a (v.extractLsb' 0 8)).set (a + 1) (v.extractLsb' 8 8)

/-- Write a 32-bit element at offset `a`, little-endian byte lanes (R65). -/
def Memory.store32 (m : Memory) (a : Nat) (v : Word) : Memory :=
  (m.store16 a (v.extractLsb' 0 16)).store16 (a + 2) (v.extractLsb' 16 16)

/-- Write consecutive 16-bit elements from offset `a`. -/
def Memory.storeHalves : Memory → Nat → List Half → Memory
  | m, _, [] => m
  | m, a, v :: vs => Memory.storeHalves (m.store16 a v) (a + 2) vs

/-- Write consecutive 32-bit elements from offset `a`. -/
def Memory.storeWords : Memory → Nat → List Word → Memory
  | m, _, [] => m
  | m, a, v :: vs => Memory.storeWords (m.store32 a v) (a + 4) vs

/-- The byte at offset `a` as this operation sees it: the written value, or a FREE VALUE where nothing
has written it since reset (R16, K6; notes/assumptions/2.md). -/
def State.loadByte (s : State) (a : Nat) : Byte :=
  match Memory.find s.mem a with
  | some b => b
  | none => Config.unspecifiedByte s.hpc a

/-- The 16-bit element at offset `a` (R65). -/
def State.load16 (s : State) (a : Nat) : Half := s.loadByte (a + 1) ++ s.loadByte a

/-- The 32-bit element at offset `a` (R65). -/
def State.load32 (s : State) (a : Nat) : Word := s.load16 (a + 2) ++ s.load16 a

/-- Offset of `XMEM[i]` (R45, R70). -/
def xmemAddr (i : Nat) : Nat := 0x10000 + 2 * i

/-- Offset of `YMEM[i]` (R46, R70). -/
def ymemAddr (i : Nat) : Nat := 0x20000 + 2 * i

/-- Offset of `RMEM[k]` (R47, R70). -/
def rmemAddr (k : Nat) : Nat := 0x30000 + 4 * k

/-- Offset of `APS[c][i]` in its read window (R43). -/
def apsAddr (c i : Nat) : Nat := 0x400 + 0x20 * c + 4 * i

/-- `XMEM[i]` (R45). -/
def State.xmem (s : State) (i : Nat) : Half := s.load16 (xmemAddr i)

/-- `YMEM[i]` (R46). -/
def State.ymem (s : State) (i : Nat) : Half := s.load16 (ymemAddr i)

/-- `RMEM[k]` (R47). -/
def State.rmem (s : State) (k : Nat) : Word := s.load32 (rmemAddr k)

/-- Context `c` (R40, R41); one that is not initialised where there is none. -/
def State.ctx (s : State) (c : Nat) : ApContext :=
  (s.ctxs[c]?).getD ApContext.uninitialised

/-- Replace context `c`. -/
def State.setCtx (s : State) (c : Nat) (x : ApContext) : State :=
  { s with ctxs := s.ctxs.setIfInBounds c x }

/-- Cell `i` of a context, in the order of R40. -/
def ApContext.cell (x : ApContext) : Nat → Word
  | 0 => x.u0
  | 1 => x.u1
  | 2 => x.l0
  | 3 => x.l1
  | _ => x.carry

/-- `raise CmdError(code)`: what it writes, and nothing else (R216). -/
def State.raise (s : State) (code : ErrorCode) (w : Word) : State :=
  { s with
    status := statusWord code.number
    esticky := s.esticky ||| code.stickyBit
    ecmd := w }

/-- A command completes: `STATUS.CODE <- 0` (R26, R107). There is no return from an error: the next
command runs like any other and this write is all that the error's `STATUS` sees of it (R217). -/
def State.succeed (s : State) : State := { s with status := statusWord 0 }

/-- The phases of a command after decoding (R107): validate, giving the first violated check; then
either raise it or execute and complete. -/
def State.command (s : State) (w : Word) (violated : Option ErrorCode) (effect : State → State) :
    Host.Outcome State Fault Refusal :=
  .next <|
    match violated with
    | some code => s.raise code w
    | none => (effect s).succeed

/-- Hardware reset (R52, R240, R243): every register 0, every `APV[c]` 0, no byte of the memories with
a known value. The parameters stay; the host script is not the block's. -/
def State.resetBlock (s : State) : State :=
  { s with
    status := 0
    esticky := 0
    ecmd := 0
    scale := 0
    outlen := 0
    opa := 0
    opb := 0
    res := 0
    ctxs := Vector.replicate 32 ApContext.uninitialised
    mem := [] }

/-- The host gives the block its next operation: the script moves on, `hpc <- hpc + 1` (R15, R23), and
the access will be acknowledged unless it answers otherwise. -/
def State.accept (s : State) (rest : List HostOp) : State :=
  { s with pending := rest, hpc := s.hpc + 1, resp := .ack }

/-- The host receives `r` from the port. -/
def State.respond (s : State) (r : PortResponse) : State := { s with resp := r }

/-- The host address of offset `off` (R12). -/
def Config.hostAddress (c : Config) (off : Nat) : Nat := c.base + off

/-- The offset a host address falls on, if it is one of the block's `0x40000` bytes (R12, R48, R70). -/
def Config.offsetOf (c : Config) (addr : Nat) : Option Nat :=
  if c.base ≤ addr ∧ addr < c.base + 0x40000 then some (addr - c.base) else none

end Sys2Proof.Machine
end

