-- ==== Sys2Proof/Machine/Operands.lean ====
section
/-! DEFINITION. The operand forms of the commands: the general registers read as signed 32-bit, as
signed 16-bit or as unsigned values (rule R135), the result register (rules R22, R135), the frame
in `XMEM` (rules R15, R81), the fields of the command word (rule R97, read by the decoder). -/

namespace Sys2Proof.Machine

open Sys2Proof

/-- `sext_32` of a register (R130). -/
def signed32 (r : Word) : Int := r.toInt

/-- `sext_16` of bits 15:0 of a register; the upper half is ignored (R131, R133, R135). -/
def signed16 (r : Word) : Int := (r.extractLsb' 0 16).toInt

/-- A register as `uint32` (R134). -/
def unsigned32 (r : Word) : Nat := r.toNat

/-- The pattern of a value modulo `2^32` (R66, R135). -/
def pattern32 (v : Int) : Word := BitVec.ofInt 32 v

/-- The pattern of a value modulo `2^16` (R66). -/
def pattern16 (v : Int) : Half := BitVec.ofInt 16 v

/-- `RES <- v` (R22, R135). -/
def State.setRes (s : State) (v : Int) : State := { s with res := pattern32 v }

/-- The frame sample `X(i) = sext_16(XMEM[i])` (R15). -/
def State.sample (s : State) (i : Nat) : Int := (s.xmem i).toInt

/-- The frame `X(0) .. X(n-1)` (R81). -/
def State.frame (s : State) (n : Nat) : List Int := (List.range n).map s.sample

end Sys2Proof.Machine
end

