-- ==== Sys2Proof/Machine/Autocorr.lean ====
section
/-! DEFINITION. The autocorrelation commands `ACORR` and `ACORRV` (41_autocorrelation.md, rules R140 to
R155). Sums are exact integers; that they fit the 64-bit accumulator is rule R146. -/

namespace Sys2Proof.Machine

open Sys2Proof

/-- An accumulator that starts at `total` and adds `f 0`, `f 1`, ..., `f (n-1)` in turn (R142, R151). -/
def accumulate (total : Int) (f : Nat → Int) : Nat → Int
  | 0 => total
  | n + 1 => accumulate total f n + f n

/-- One term of lag `k` (R143). -/
def lagTerm (x : Nat → Int) (k j : Nat) : Int := x j * x (j + k)

/-- `prod_k`, the sum of the `N - k` terms of lag `k` in scalar order (R142, R143). -/
def lagSum (x : Nat → Int) (n k : Nat) : Int := accumulate 0 (lagTerm x k) (n - k)

/-- The sum of group `g` of `lanes` products (R151). -/
def groupSum (lanes : Nat) (x : Nat → Int) (k g : Nat) : Int :=
  accumulate 0 (fun l => lagTerm x k (g * lanes + l)) lanes

/-- `vsum(k)`: whole groups into a running total, then the scalar tail (R151). -/
def groupedLagSum (lanes : Nat) (x : Nat → Int) (n k : Nat) : Int :=
  let terms := n - k
  let groups := terms / lanes
  let total := accumulate 0 (groupSum lanes x k) groups
  accumulate total (fun j => lagTerm x k (groups * lanes + j)) (terms - groups * lanes)

/-- The preconditions of both commands, in their order (R141, R213). -/
def acorrViolated (cfg : Config) (n order : Nat) : Option ErrorCode :=
  if n % 4 ≠ 0 ∨ n < 8 ∨ cfg.nmax < n then some .len
  else if n ≤ order ∨ cfg.ordmax < order then some .order
  else none

/-- Steps 2 to 5 on the sums `prod 0 .. prod order`: one shared scale from lag 0 (R144, R145, R155),
`RMEM[0 .. order]`, `SCALE` and `OUTLEN` (R149). -/
def State.storeCoefficients (s : State) (prod : Nat → Int) (order : Nat) : State :=
  let scale := scaleOf (prod 0)
  { s with
    mem := Memory.storeWords s.mem (rmemAddr 0)
      ((List.range (order + 1)).map fun k => pattern32 (asr (prod k) scale))
    scale := pattern32 scale
    outlen := BitVec.ofNat 32 (order + 1) }

/-- `ACORR n, order` (R140). -/
def execAcorr (n order : Nat) (s : State) : Host.Outcome State Fault Refusal :=
  s.command (encode (.acorr n order)) (acorrViolated s.cfg n order) fun s =>
    s.storeCoefficients (lagSum s.sample n) order

/-- The checks of `ACORRV`: the vector path must exist, then those of `ACORR` (R101, R150). -/
def acorrvViolated (cfg : Config) (n order : Nat) : Option ErrorCode :=
  if cfg.lanes = 1 then some .illegal else acorrViolated cfg n order

/-- `ACORRV n, order` (R150). -/
def execAcorrv (n order : Nat) (s : State) : Host.Outcome State Fault Refusal :=
  s.command (encode (.acorrv n order)) (acorrvViolated s.cfg n order) fun s =>
    s.storeCoefficients (groupedLagSum s.cfg.lanes s.sample n) order

end Sys2Proof.Machine
end

