-- ==== Sys2Proof/Machine/Decimator.lean ====
section
/-! DEFINITION. The decimation command `DECIM` (42_allpass_decimator.md, rules R170 to R190). The
working buffer is local to the command (rule R50). The Q labels of the source are not rules (R188). -/

namespace Sys2Proof.Machine

open Sys2Proof

/-- One sample `s` through one section with coefficient `a` and accumulator `acc`: its output and the
new accumulator (R172). -/
def apSection (s a acc : Int) : Int × Int :=
  let p1 := mulrs16 s a
  let b := satAdd32 (p1 * 2) acc
  let bh := asr b 16
  let p2 := mulrs16 bh (-a)
  (trunc16 bh, satAdd32 (p2 * 2) (s * 65536))

/-- One sample through section 0 and its output through section 1 (R173): the output and the two new
accumulators. -/
def apSections (a0 a1 s acc0 acc1 : Int) : Int × Int × Int :=
  let first := apSection s a0 acc0
  let second := apSection first.1 a1 acc1
  (second.1, first.2, second.2)

/-- `apfilter` (R173) from buffer position `i` on, `count` samples at stride 2, in place: the two
accumulators and the buffer. -/
def apFilter (a0 a1 : Int) : Nat → Nat → Int → Int → List Int → Int × Int × List Int
  | 0, _, acc0, acc1, wbuf => (acc0, acc1, wbuf)
  | count + 1, i, acc0, acc1, wbuf =>
    let r := apSections a0 a1 (wbuf.getD i 0) acc0 acc1
    apFilter a0 a1 count (i + 2) r.2.1 r.2.2 (wbuf.set i r.1)

/-- The working buffer of step 1, of `N + 1` elements (R175). -/
def workingBuffer (carry : Word) (frame : List Int) : List Int := asr carry.toInt 16 :: frame

/-- Step 5: the `half` output samples of the filtered buffer (R179). -/
def recombine (half : Nat) (wbuf : List Int) : List Int :=
  (List.range half).map fun m => satAdd16 (wbuf.getD (2 * m) 0) (wbuf.getD (2 * m + 1) 0)

/-- Steps 1 to 5 (R175 to R179) on a frame of `n` samples: the output samples and the new context. -/
def decimate (cfg : Config) (x : ApContext) (n : Nat) (frame : List Int) : List Int × ApContext :=
  let upper := apFilter cfg.apUpper0 cfg.apUpper1 (n / 2) 1 x.u0.toInt x.u1.toInt
    (workingBuffer x.carry frame)
  let lower := apFilter cfg.apLower0 cfg.apLower1 (n / 2) 0 x.l0.toInt x.l1.toInt upper.2.2
  (recombine (n / 2) lower.2.2,
    { x with
      u0 := pattern32 upper.1
      u1 := pattern32 upper.2.1
      l0 := pattern32 lower.1
      l1 := pattern32 lower.2.1
      carry := pattern32 (frame.getD (n - 1) 0 * 65536) })

/-- The preconditions of `DECIM` after decoding, in their order (R171, R213). -/
def decimViolated (s : State) (n c : Nat) : Option ErrorCode :=
  if s.cfg.nctx ≤ c then some .ctx
  else if n % 2 ≠ 0 ∨ n < 2 ∨ s.cfg.nmax < n then some .len
  else if (s.ctx c).valid then none
  else some .uninit

/-- The effect of `DECIM` (R180): `YMEM[0 .. N/2 - 1]`, the cells of the context, `OUTLEN`. -/
def State.storeDecimated (s : State) (n c : Nat) : State :=
  let r := decimate s.cfg (s.ctx c) n (s.frame n)
  { s.setCtx c r.2 with
    mem := Memory.storeHalves s.mem (ymemAddr 0) (r.1.map pattern16)
    outlen := BitVec.ofNat 32 (n / 2) }

/-- `DECIM n, ctx` (R170). -/
def execDecim (n c : Nat) (s : State) : Host.Outcome State Fault Refusal :=
  s.command (encode (.decim n c)) (decimViolated s n c) fun s => s.storeDecimated n c

end Sys2Proof.Machine
end

