-- ==== Sys2Proof/Machine/Helpers.lean ====
section
/-! DEFINITION. The helper commands `SADD32`, `SADD16`, `TRUNC16`, `MULRS16`, `CLZ32` (rules R130 to
R135). No operand value makes one fail; a non-zero bit below the opcode is refused by the decoder
(rule R100) and never reaches these meanings. -/

namespace Sys2Proof.Machine

open Sys2Proof

/-- What the five helpers share (R135): `RES` and `STATUS.CODE` are written, nothing else. -/
def State.helper (s : State) (i : Instr) (v : Int) : Host.Outcome State Fault Refusal :=
  s.command (encode i) none fun s => s.setRes v

/-- `SADD32` (R130). -/
def execSadd32 (s : State) : Host.Outcome State Fault Refusal :=
  s.helper .sadd32 (satAdd32 (signed32 s.opa) (signed32 s.opb))

/-- `SADD16` (R131). -/
def execSadd16 (s : State) : Host.Outcome State Fault Refusal :=
  s.helper .sadd16 (satAdd16 (signed16 s.opa) (signed16 s.opb))

/-- `TRUNC16` (R132). -/
def execTrunc16 (s : State) : Host.Outcome State Fault Refusal :=
  s.helper .trunc16 (trunc16 (signed32 s.opa))

/-- `MULRS16` (R133). -/
def execMulrs16 (s : State) : Host.Outcome State Fault Refusal :=
  s.helper .mulrs16 (mulrs16 (signed16 s.opa) (signed16 s.opb))

/-- `CLZ32` (R134). -/
def execClz32 (s : State) : Host.Outcome State Fault Refusal :=
  s.helper .clz32 (clz32 (unsigned32 s.opa))

end Sys2Proof.Machine
end

