-- ==== Sys2Proof/Machine/Stream.lean ====
section
/-! DEFINITION. The stream initialisation command `APINIT` (43_stream_control.md, rules R200 to R203). -/

namespace Sys2Proof.Machine

open Sys2Proof

/-- An initialised context: all five cells zero, `APV = 1` (R201). -/
def ApContext.zeroed : ApContext where
  valid := true
  u0 := 0
  u1 := 0
  l0 := 0
  l1 := 0
  carry := 0

/-- The precondition of `APINIT` after decoding (R200). -/
def apinitViolated (cfg : Config) (c : Nat) : Option ErrorCode :=
  if cfg.nctx ≤ c then some .ctx else none

/-- `APINIT ctx` (R200). -/
def execApinit (c : Nat) (s : State) : Host.Outcome State Fault Refusal :=
  s.command (encode (.apinit c)) (apinitViolated s.cfg c) fun s => s.setCtx c ApContext.zeroed

end Sys2Proof.Machine
end

