-- ==== Sys2Proof/Machine/Dispatch.lean ====
section
/-! DEFINITION. The meaning of every command: one arm per constructor of `Instr`. -/

namespace Sys2Proof.Machine

open Sys2Proof

def exec (i : Instr) (s : State) : Host.Outcome State Fault Refusal :=
  match i with
  | .acorr n order => Sys2Proof.Machine.execAcorr n order s
  | .decim n c => Sys2Proof.Machine.execDecim n c s
  | .apinit c => Sys2Proof.Machine.execApinit c s
  | .acorrv n order => Sys2Proof.Machine.execAcorrv n order s
  | .sadd32 => Sys2Proof.Machine.execSadd32 s
  | .sadd16 => Sys2Proof.Machine.execSadd16 s
  | .trunc16 => Sys2Proof.Machine.execTrunc16 s
  | .mulrs16 => Sys2Proof.Machine.execMulrs16 s
  | .clz32 => Sys2Proof.Machine.execClz32 s

end Sys2Proof.Machine
end

