-- ==== Sys2Proof/Machine/Port.lean ====
section
/-! DEFINITION. The host port (20_memory.md): the register map (rules R25 to R37), the address map and
the legal accesses (rules R43, R61, R70), reads, writes and refused accesses (rules R62 to R64),
the write to `CMD` (rules R25, R96) and one host operation. -/

namespace Sys2Proof.Machine

open Sys2Proof

/-- The registers of R37. -/
inductive Reg where
  | cmd | status | esticky | ecmd | scale | outlen | opa | opb | res
  | config0 | config1 | apvalid | apcu0 | apcu1 | apcl0 | apcl1
deriving DecidableEq, Repr

/-- The offset of a register (R37). -/
def Reg.offset : Reg → Nat
  | .cmd => 0x000
  | .status => 0x004
  | .esticky => 0x008
  | .ecmd => 0x00C
  | .scale => 0x010
  | .outlen => 0x014
  | .opa => 0x018
  | .opb => 0x01C
  | .res => 0x020
  | .config0 => 0x024
  | .config1 => 0x028
  | .apvalid => 0x02C
  | .apcu0 => 0x030
  | .apcu1 => 0x034
  | .apcl0 => 0x038
  | .apcl1 => 0x03C

/-- The registers in the order of R37. -/
def Reg.all : List Reg :=
  [.cmd, .status, .esticky, .ecmd, .scale, .outlen, .opa, .opb, .res,
   .config0, .config1, .apvalid, .apcu0, .apcu1, .apcl0, .apcl1]

/-- The register at an offset (R37); every other offset below `0x400` is reserved. -/
def Reg.at? (off : Nat) : Option Reg := Reg.all.find? fun r => r.offset == off

/-- A location of the address map (R70). -/
inductive Location where
  /-- A register. -/
  | reg (r : Reg)
  /-- `APS[c][i]`. -/
  | aps (c i : Nat)
  /-- `XMEM[i]`. -/
  | xmem (i : Nat)
  /-- `YMEM[i]`. -/
  | ymem (i : Nat)
  /-- `RMEM[k]`. -/
  | rmem (k : Nat)
deriving DecidableEq, Repr

/-- The `APS[c][i]` whose read window starts at offset `off`, if any (R43). -/
def apsAt? (cfg : Config) (off : Nat) : Option Location :=
  let c := (off - 0x400) / 0x20
  let i := (off - 0x400) % 0x20 / 4
  if off % 4 = 0 ∧ c < cfg.nctx ∧ i ≤ 4 then some (.aps c i) else none

/-- The element of a memory of `count` elements of `size` bytes from offset `start` that starts at
offset `off`, if any (R61, R70). -/
def elementAt? (start size count off : Nat) (location : Nat → Location) : Option Location :=
  let i := (off - start) / size
  if start ≤ off ∧ (off - start) % size = 0 ∧ i < count then some (location i) else none

/-- The location a legal access of `n` bytes at offset `off` moves (R61, R70): each location has one
legal size and must be naturally aligned. `none` for every access R64 refuses for its size, its
alignment or its offset. -/
def locate (cfg : Config) (off n : Nat) : Option Location :=
  if n = 4 then
    if off < 0x400 then (Reg.at? off).map .reg
    else if off < 0x800 then apsAt? cfg off
    else elementAt? (rmemAddr 0) 4 (cfg.ordmax + 1) off .rmem
  else if n = 2 then
    if off < 0x20000 then elementAt? (xmemAddr 0) 2 cfg.nmax off .xmem
    else elementAt? (ymemAddr 0) 2 (cfg.nmax / 2) off .ymem
  else none

/-- `CONFIG0` (R33). -/
def config0Word (c : Config) : Word := BitVec.ofNat 32 (c.lanes * 2 ^ 28 + c.ordmax * 2 ^ 16 + c.nmax)

/-- `CONFIG1` (R34): interface version 1. -/
def config1Word (c : Config) : Word := BitVec.ofNat 32 (1 * 2 ^ 8 + c.nctx)

/-- What a register reads as (R26 to R36); `none` for the write-only `CMD` (R25). -/
def State.readReg (s : State) : Reg → Option Word
  | .cmd => none
  | .status => some s.status
  | .esticky => some s.esticky
  | .ecmd => some s.ecmd
  | .scale => some s.scale
  | .outlen => some s.outlen
  | .opa => some s.opa
  | .opb => some s.opb
  | .res => some s.res
  | .config0 => some (config0Word s.cfg)
  | .config1 => some (config1Word s.cfg)
  | .apvalid => some (apvalidWord s.cfg.nctx s.ctxs)
  | .apcu0 => some (pattern32 s.cfg.apUpper0)
  | .apcu1 => some (pattern32 s.cfg.apUpper1)
  | .apcl0 => some (pattern32 s.cfg.apLower0)
  | .apcl1 => some (pattern32 s.cfg.apLower1)

/-- What `APS[c][i]` reads as; a FREE VALUE while `APV[c] = 0` (R43, R16; notes/assumptions/3.md). -/
def State.readAps (s : State) (c i : Nat) : Word :=
  if (s.ctx c).valid then (s.ctx c).cell i else Config.unspecifiedCell s.hpc c i

/-- The content of a location as the host reads it (R62, R66). -/
def State.content (s : State) : Location → Option PortResponse
  | .reg r => (s.readReg r).map .data32
  | .aps c i => some (.data32 (s.readAps c i))
  | .xmem i => some (.data16 (s.xmem i))
  | .ymem i => some (.data16 (s.ymem i))
  | .rmem k => some (.data32 (s.rmem k))

/-- `MemRead(off, n)` (R62): the content, or the error response of a refused access (R64). -/
def State.portRead (s : State) (off n : Nat) : State :=
  match (locate s.cfg off n).bind s.content with
  | some r => s.respond r
  | none => s.respond (.busError off)

/-- The host writes the word `w` to `CMD` (R25): the command runs to completion; an illegal word raises
`E_ILLEGAL` and does nothing else (R96). -/
def State.writeCmd (s : State) (w : Word) : Host.Outcome State Fault Refusal :=
  match decodeWord w with
  | .command i => exec i s
  | .illegal _ => .next (s.raise .illegal w)

/-- `MemWrite(off, n, v)` (R63): the writable locations are `CMD`, `OPA`, `OPB` and `XMEM`; every other
write is refused (R64). -/
def State.portWrite (s : State) (off n : Nat) (v : Word) : Host.Outcome State Fault Refusal :=
  match locate s.cfg off n with
  | some (.reg .cmd) => s.writeCmd v
  | some (.reg .opa) => .next { s with opa := v }
  | some (.reg .opb) => .next { s with opb := v }
  | some (.xmem i) =>
    .next { s with mem := Memory.store16 s.mem (xmemAddr i) (v.extractLsb' 0 16) }
  | _ => .next (s.respond (.busError off))

/-- One host operation (R60, R75, R240), performed completely before the next. -/
def State.perform (s : State) : HostOp → Host.Outcome State Fault Refusal
  | .read off n => .next (s.portRead off n)
  | .write off n v => s.portWrite off n v
  | .reset => .next s.resetBlock

end Sys2Proof.Machine
end

