-- ==== Sys2Proof/Machine/Script.lean ====
section
/-! DEFINITION. Host scripts in the assembler syntax of rules R104 and R105: what host operations a line
stands for and what it asserts. -/

namespace Sys2Proof.Machine

open Sys2Proof

/-- A line of a host script (R104, R105). -/
inductive ScriptLine where
  /-- A command mnemonic with its operands. -/
  | command (i : Instr)
  /-- `CMDW w`. -/
  | cmdw (w : Word)
  /-- `WR16 off, v`. -/
  | wr16 (off : Nat) (v : Int)
  /-- `WR32 off, v`. -/
  | wr32 (off : Nat) (v : Int)
  /-- `RD16 off`. -/
  | rd16 (off : Nat)
  /-- `RD32 off`. -/
  | rd32 (off : Nat)
  /-- `RESET`. -/
  | reset
  /-- `LDX i0, v0, ..., vm`. -/
  | ldx (i0 : Nat) (vs : List Int)
  /-- `SETOPS a, b`. -/
  | setops (a b : Int)
  /-- `EXPECT16 off, v`. -/
  | expect16 (off : Nat) (v : Int)
  /-- `EXPECT32 off, v`. -/
  | expect32 (off : Nat) (v : Int)
deriving DecidableEq, Repr

/-- `WR16 XMEM[i0], v0` and so on (R105). -/
def loadFrame : Nat → List Int → List HostOp
  | _, [] => []
  | i, v :: vs => .write (xmemAddr i) 2 (pattern32 v) :: loadFrame (i + 1) vs

/-- The host operations a line stands for (R104, R105). -/
def ScriptLine.ops : ScriptLine → List HostOp
  | .command i => [.write Reg.cmd.offset 4 (encode i)]
  | .cmdw w => [.write Reg.cmd.offset 4 w]
  | .wr16 off v => [.write off 2 (pattern32 v)]
  | .wr32 off v => [.write off 4 (pattern32 v)]
  | .rd16 off => [.read off 2]
  | .rd32 off => [.read off 4]
  | .reset => [.reset]
  | .ldx i0 vs => loadFrame i0 vs
  | .setops a b => [.write Reg.opa.offset 4 (pattern32 a), .write Reg.opb.offset 4 (pattern32 b)]
  | .expect16 off _ => [.read off 2]
  | .expect32 off _ => [.read off 4]

/-- What the last operation of a line must answer for the script to go on as written (R105). -/
def ScriptLine.expected : ScriptLine → Option PortResponse
  | .expect16 _ v => some (.data16 (pattern16 v))
  | .expect32 _ v => some (.data32 (pattern32 v))
  | .command _ | .cmdw _ | .wr16 _ _ | .wr32 _ _ | .rd16 _ | .rd32 _ | .reset | .ldx _ _
  | .setops _ _ => none

/-- The block with a script still to be performed. -/
def State.withScript (s : State) (lines : List ScriptLine) : State :=
  { s with pending := lines.flatMap ScriptLine.ops }

end Sys2Proof.Machine
end

