-- ==== Sys2Proof/Machine/Step.lean ====
section
/-! DEFINITION. One step: the next operation of the host script, performed completely (rules R6, R60,
R75). With no operation to come the block is idle and holds its state (rules R106, R235). -/

namespace Sys2Proof.Machine

open Sys2Proof

/-- One step of the machine. -/
def step (s : State) : Host.Outcome State Fault Refusal :=
  match s.pending with
  | [] => .next s
  | op :: rest => (s.accept rest).perform op

/-- `s` with the word whose low `nbits` bits are those of `w` (the bits above zero) as the next word
the host writes to `CMD`, which is where a command comes from (R25, R78). The rest of the script
follows it. -/
def State.withFetchWord (s : State) (nbits w : Nat) : State :=
  { s with
    pending := .write Reg.cmd.offset 4 (BitVec.ofNat 32 (w % 2 ^ nbits)) :: s.pending }

end Sys2Proof.Machine
end

