-- ==== Sys2Proof/Safety.lean ====
section
/-! DEFINITION. What counts as a safe run, the invariants of the machine and the terms in which the
statements about it are made. -/

namespace Sys2Proof.Machine

open Sys2Proof

/-- The last access was not refused. A script whose access is refused is an invalid script (R64, K7);
the block itself goes on unchanged. -/
def State.accessOk (s : State) : Bool :=
  match s.resp with
  | .busError _ => false
  | .quiet | .ack | .data16 _ | .data32 _ => true

/-- The next `k` steps all happen and the port refuses none of their accesses. -/
def SafeFor : Nat → State → Prop
  | 0, _ => True
  | k + 1, s => ∃ t, step s = .next t ∧ t.accessOk = true ∧ SafeFor k t

/-- The element a byte offset of `XMEM`, `YMEM` or `RMEM` belongs to: its first byte and its size;
`none` for an offset outside them (R61, R70). -/
def elementOf (cfg : Config) (a : Nat) : Option (Nat × Nat) :=
  if xmemAddr 0 ≤ a ∧ a < xmemAddr cfg.nmax then some (a - a % 2, 2)
  else if ymemAddr 0 ≤ a ∧ a < ymemAddr (cfg.nmax / 2) then some (a - a % 2, 2)
  else if rmemAddr 0 ≤ a ∧ a < rmemAddr (cfg.ordmax + 1) then some (a - a % 4, 4)
  else none

/-- Every byte of the element that holds the byte at `a` has a written value. -/
def elementWritten (cfg : Config) (m : Memory) (a : Nat) : Bool :=
  match elementOf cfg a with
  | some (start, size) => (List.range size).all fun d => (Memory.find m (start + d)).isSome
  | none => false

/-- The memories are in canonical form and hold whole elements inside their windows (R61, R70). -/
abbrev State.MemoryInv (s : State) : Prop :=
  Memory.wf s.mem ∧ s.mem.all (fun p => elementWritten s.cfg s.mem p.1) = true

/-- The status registers agree (R26 to R28, R211): `CODE` is one of the six codes and the bits above it
are zero; bit 0 and bits 31:6 of `ESTICKY` are zero; the code of a failed command is in `ESTICKY`;
before the first failure `ECMD` is 0. -/
abbrev State.StatusInv (s : State) : Prop :=
  s.status.toNat ≤ 5 ∧
  s.esticky &&& 0xFFFFFFC1 = 0 ∧
  (s.status ≠ 0 → s.esticky.getLsbD s.status.toNat = true) ∧
  (s.esticky = 0 → s.ecmd = 0)

/-- The contexts (R9, R40, R175): there is none at or above `NCTX`, and the carry cell of an initialised
context is a sample times `2^16`. -/
abbrev State.ContextInv (s : State) : Prop :=
  ∀ c : Fin 32, s.ctxs[c].valid = true →
    c.val < s.cfg.nctx ∧ s.ctxs[c].carry.toNat % 65536 = 0

/-- The result registers (R29, R30, R147): the scale is in `0 .. 15`; the result fits its memory. -/
abbrev State.ResultInv (s : State) : Prop :=
  s.scale.toNat ≤ 15 ∧
  (s.outlen.toNat ≤ s.cfg.ordmax + 1 ∨ s.outlen.toNat ≤ s.cfg.nmax / 2)

/-- The invariant of the machine. -/
abbrev State.Inv (s : State) : Prop :=
  s.cfg.Legal ∧ s.MemoryInv ∧ s.StatusInv ∧ s.ContextInv ∧ s.ResultInv

/-- The operands of a successful `ACORR` (R141). -/
abbrev AcorrLegal (cfg : Config) (n order : Nat) : Prop :=
  n % 4 = 0 ∧ 8 ≤ n ∧ n ≤ cfg.nmax ∧ order < n ∧ order ≤ cfg.ordmax

/-- The operands of a successful `DECIM` (R171). -/
abbrev DecimLegal (s : State) (n c : Nat) : Prop :=
  c < s.cfg.nctx ∧ n % 2 = 0 ∧ 2 ≤ n ∧ n ≤ s.cfg.nmax ∧ (s.ctx c).valid = true

/-- A two-section filter on its sequence of inputs (R173, R181): the outputs and the two accumulators
afterwards. It knows no buffer. -/
def branch (a0 a1 : Int) : Int → Int → List Int → List Int × Int × Int
  | acc0, acc1, [] => ([], acc0, acc1)
  | acc0, acc1, v :: vs =>
    let r := apSections a0 a1 v acc0 acc1
    let later := branch a0 a1 r.2.1 r.2.2 vs
    (r.1 :: later.1, later.2)

/-- One section on its sequence of inputs (R172): the outputs and the accumulator afterwards. -/
def sectionPass (a : Int) : Int → List Int → List Int × Int
  | acc, [] => ([], acc)
  | acc, v :: vs =>
    let r := apSection v a acc
    let later := sectionPass a r.2 vs
    (r.1 :: later.1, later.2)

/-- What the upper branch filters: `X(0), X(2), ..., X(N-2)` (R181). -/
def upperInputs (x : Nat → Int) (n : Nat) : List Int := (List.range (n / 2)).map fun m => x (2 * m)

/-- What the lower branch filters: the last sample of the previous frame, then `X(1), X(3), ..., X(N-3)`
(R181). -/
def lowerInputs (last : Int) (x : Nat → Int) (n : Nat) : List Int :=
  (List.range (n / 2)).map fun m => if m = 0 then last else x (2 * m - 1)

/-- The upper branch of `DECIM` on context `c` (R177, R181). -/
def State.upperBranch (s : State) (n c : Nat) : List Int × Int × Int :=
  branch s.cfg.apUpper0 s.cfg.apUpper1 (s.ctx c).u0.toInt (s.ctx c).u1.toInt
    (upperInputs s.sample n)

/-- The lower branch of `DECIM` on context `c` (R178, R181). -/
def State.lowerBranch (s : State) (n c : Nat) : List Int × Int × Int :=
  branch s.cfg.apLower0 s.cfg.apLower1 (s.ctx c).l0.toInt (s.ctx c).l1.toInt
    (lowerInputs ((s.ctx c).carry.toInt / 65536) s.sample n)

/-- A read the port answers, by the offsets of R37, R43 and R70: a register but `CMD`, a cell of an
existing context or a coefficient with four bytes, a sample or an output sample with two (R61, R62). -/
def Readable (cfg : Config) (off n : Nat) : Prop :=
  (n = 4 ∧ (4 ≤ off ∧ off ≤ 0x03C ∧ off % 4 = 0 ∨
    (∃ c i, c < cfg.nctx ∧ i ≤ 4 ∧ off = 0x400 + 0x20 * c + 4 * i) ∨
    ∃ k, k ≤ cfg.ordmax ∧ off = 0x30000 + 4 * k)) ∨
  (n = 2 ∧ ((∃ i, i < cfg.nmax ∧ off = 0x10000 + 2 * i) ∨
    ∃ i, i < cfg.nmax / 2 ∧ off = 0x20000 + 2 * i))

/-- A write the port accepts, by the offsets of R37 and R70: `CMD`, `OPA`, `OPB` with four bytes, `XMEM[i]`
with two (R61, R63). -/
def Writable (cfg : Config) (off n : Nat) : Prop :=
  (n = 4 ∧ (off = 0x000 ∨ off = 0x018 ∨ off = 0x01C)) ∨
    (n = 2 ∧ ∃ i, i < cfg.nmax ∧ off = 0x10000 + 2 * i)

/-- The host's next operation is a write of the word `w` to `CMD`, at offset 0 (R25). -/
def State.NextIsCommandWrite (s : State) (w : Word) : Prop :=
  ∃ rest, s.pending = .write 0x000 4 w :: rest

/-- The host's next operation is reset (R240). -/
def State.NextIsReset (s : State) : Prop := ∃ rest, s.pending = .reset :: rest

end Sys2Proof.Machine
end

