-- ==== Sys2Proof/Certificates/Slice0/Obligations.lean ====
section
/-! DEFINITION. The statements for the provers: what the numbered rules of the spec say of this
machine. OBLIGATIONS.json lists each with the rules it formalises. -/

open Sys2Proof Sys2Proof.Machine

/-! ### Encoding (30_encoding.md) -/

/-- Every command, with every operand at every value its field admits, decodes from its own word. -/
def Obligations.DecodeEncodeAgree : Prop :=
  ∀ i : Instr, i.wellFormed = true → decodeWord (encode i) = .command i

/-- No two words are one command: a word that decodes is the word of what it decodes to. -/
def Obligations.EncodeDecodeAgree : Prop :=
  ∀ (w : Word) (i : Instr), decodeWord w = .command i → i.wellFormed = true ∧ encode i = w

/-- R98: a word selects the row of the opcode map whose `match` it has under the row's `mask`, and only
that row; the selected row is the command it decodes to. -/
def Obligations.OpcodeMapSelectsTheCommand : Prop :=
  (∀ (w : Word) (i : Instr), decodeWord w = .command i → w &&& i.maskBits = i.matchBits) ∧
  (∀ (w : Word) (i : Instr), w &&& i.maskBits = i.matchBits →
    ∃ j, decodeWord w = .command j ∧ j.opc = i.opc)

/-- R99: a word with a reserved opcode, the all-zero and the all-ones word among them, raises
`E_ILLEGAL` and does nothing else. -/
def Obligations.ReservedOpcodesRaiseIllegal : Prop :=
  (∀ (s : State) (w : Word), field w 31 28 ∈ [0x0, 0x5, 0x6, 0x7, 0xD, 0xE, 0xF] →
    s.writeCmd w =
      .next { s with status := 1, esticky := s.esticky ||| 2, ecmd := w }) ∧
  field 0x00000000 31 28 = 0x0 ∧ field 0xFFFFFFFF 31 28 = 0xF

/-- R100: a word with a non-zero bit in a must-be-zero field raises `E_ILLEGAL` and does nothing else. -/
def Obligations.MustBeZeroFieldsAreChecked : Prop :=
  ∀ (s : State) (w : Word),
    (field w 31 28 ∈ [0x2, 0x3] ∧ field w 27 24 ≠ 0) ∨
    (field w 31 28 = 0x3 ∧ field w 15 0 ≠ 0) ∨
    (field w 31 28 ∈ [0x8, 0x9, 0xA, 0xB, 0xC] ∧ field w 27 0 ≠ 0) →
    s.writeCmd w = .next { s with status := 1, esticky := s.esticky ||| 2, ecmd := w }

/-- Sanity: words written out from the spec's encodings decode to the commands they stand for. -/
def Obligations.WrittenOutWordsDecode : Prop :=
  decodeWord 0x1FFF0100 = .command (.acorr 256 4095) ∧
  decodeWord 0x40020008 = .command (.acorrv 8 2) ∧
  decodeWord 0x20FF0008 = .command (.decim 8 255) ∧
  decodeWord 0x30010000 = .command (.apinit 1) ∧
  decodeWord 0x80000000 = .command .sadd32 ∧
  decodeWord 0xC0000000 = .command .clz32 ∧
  decodeWord 0x21000008 = .illegal (.nonZero .zero4) ∧
  decodeWord 0x50000000 = .illegal (.reservedOpcode 5)

/-! ### The step (R6, R23, R25, R60, R75) -/

/-- A step runs the decoded command: a write of `w` to `CMD` runs the command `w` decodes to on the
state in which the script has moved on, and an illegal word raises `E_ILLEGAL` there. That State holds
the script and the response is the model's choice (notes/assumptions/5.md). -/
def Obligations.StepRunsTheDecodedCommand : Prop :=
  ∀ (s : State) (w : Word) (rest : List HostOp),
    s.pending = .write 0x000 4 w :: rest →
    (∀ i, decodeWord w = .command i → step s =
      exec i { s with pending := rest, hpc := s.hpc + 1, resp := .ack }) ∧
    (∀ why, decodeWord w = .illegal why → step s =
      .next (State.raise { s with pending := rest, hpc := s.hpc + 1, resp := .ack } .illegal w))

/-- R235, R106: with no host operation to come the block is idle and holds its state. That a step is then
the identity is the model's choice (notes/assumptions/5.md). -/
def Obligations.IdleBlockHoldsItsState : Prop :=
  ∀ s : State, s.pending = [] → step s = .next s

/-- R262: the `CMD` write always returns, with one of the six codes of R211; and every host operation
completes, so the machine never stops; that a refused access completes too is the model's choice
(notes/assumptions/4.md). -/
def Obligations.EveryOperationCompletes : Prop :=
  (∀ (s : State) (w : Word), ∃ t, s.writeCmd w = .next t ∧ t.status.toNat ≤ 5) ∧
  (∀ s : State, ∃ t, step s = .next t)

/-- R15, R23, R51: every host operation moves the script on by one, no command changes the script or its
position, and nothing changes the parameters (the script in State: notes/assumptions/5.md, the
parameters: notes/assumptions/8.md). -/
def Obligations.StepMovesTheScriptByOne : Prop :=
  (∀ (s t : State) (op : HostOp) (rest : List HostOp), s.pending = op :: rest → step s = .next t →
    t.pending = rest ∧ t.hpc = s.hpc + 1 ∧ t.cfg = s.cfg) ∧
  (∀ (i : Instr) (s t : State), exec i s = .next t →
    t.pending = s.pending ∧ t.hpc = s.hpc ∧ t.resp = s.resp ∧ t.cfg = s.cfg)

/-! ### The fixed-point primitives and the helper commands (40_fixed_point_helpers.md) -/

/-- R123: `sat_add32` clamps the exact sum to `int32`; it is commutative and not associative. -/
def Obligations.SaturatingAdd32 : Prop :=
  (∀ a b : Int, satAdd32 a b = max (-2 ^ 31) (min (2 ^ 31 - 1) (a + b))) ∧
  (∀ a b : Int, satAdd32 a b = satAdd32 b a) ∧
  satAdd32 (satAdd32 (2 ^ 31 - 1) 1) (-1) = 2 ^ 31 - 2 ∧
  satAdd32 (2 ^ 31 - 1) (satAdd32 1 (-1)) = 2 ^ 31 - 1

/-- R125: `trunc16` is the unique `int16` congruent to its argument modulo `2^16`. -/
def Obligations.TruncationWraps : Prop :=
  (∀ v t : Int, trunc16 v = t ↔ -32768 ≤ t ∧ t ≤ 32767 ∧ (v - t) % 65536 = 0) ∧
  trunc16 32768 = -32768 ∧ trunc16 65536 = 0

/-- R128: on `0 <= p < 2^63` the scale is the number of bits `p` has above bit 30. -/
def Obligations.ScaleIsTheExcessBitLength : Prop :=
  ∀ p : Int, 0 ≤ p → p < 2 ^ 63 →
    scaleOf p = max 0 (bitLength p.toNat - 31) ∧
    scaleOf p = bitLength (p / 2 ^ 31).toNat ∧
    p < 2 ^ (31 + scaleOf p) ∧
    (0 < scaleOf p → 2 ^ (30 + scaleOf p) ≤ p)

/-- R130: `SADD32`. -/
def Obligations.Sadd32Result : Prop :=
  encode .sadd32 = 0x80000000 ∧
  (∀ s : State, ∃ t, exec .sadd32 s = .next t ∧
    t.res.toInt = max (-2 ^ 31) (min (2 ^ 31 - 1) (s.opa.toInt + s.opb.toInt)) ∧
    t = { s with res := t.res, status := 0 }) ∧
  (∀ (s : State) (w : Word), field w 31 28 = 0x8 → field w 27 0 ≠ 0 →
    s.writeCmd w = .next (s.raise .illegal w))

/-- R131: `SADD16`; the upper halves of the operands are ignored. -/
def Obligations.Sadd16Result : Prop :=
  encode .sadd16 = 0x90000000 ∧
  (∀ s : State, ∃ t, exec .sadd16 s = .next t ∧
    t.res.toInt = max (-32768) (min 32767
      ((s.opa.extractLsb' 0 16).toInt + (s.opb.extractLsb' 0 16).toInt)) ∧
    t = { s with res := t.res, status := 0 }) ∧
  (∀ (s : State) (w : Word), field w 31 28 = 0x9 → field w 27 0 ≠ 0 →
    s.writeCmd w = .next (s.raise .illegal w))

/-- R132: `TRUNC16` keeps the low half of `OPA` and fills the upper half with copies of bit 15. -/
def Obligations.Trunc16Result : Prop :=
  encode .trunc16 = 0xA0000000 ∧
  (∀ s : State, ∃ t, exec .trunc16 s = .next t ∧
    t.res.extractLsb' 0 16 = s.opa.extractLsb' 0 16 ∧
    t.res.extractLsb' 16 16 = (if s.opa.getLsbD 15 then 0xFFFF else 0x0000) ∧
    t = { s with res := t.res, status := 0 }) ∧
  (∀ (s : State) (w : Word), field w 31 28 = 0xA → field w 27 0 ≠ 0 →
    s.writeCmd w = .next (s.raise .illegal w))

/-- R126, R133: `MULRS16` gives the floor of the exact product divided by `2^16`, between the extremes
-16384 and 16384, which it reaches. -/
def Obligations.Mulrs16Result : Prop :=
  encode .mulrs16 = 0xB0000000 ∧
  (∀ s : State, ∃ t, exec .mulrs16 s = .next t ∧
    t.res.toInt * 65536 ≤ (s.opa.extractLsb' 0 16).toInt * (s.opb.extractLsb' 0 16).toInt ∧
    (s.opa.extractLsb' 0 16).toInt * (s.opb.extractLsb' 0 16).toInt < (t.res.toInt + 1) * 65536 ∧
    -16384 ≤ t.res.toInt ∧ t.res.toInt ≤ 16384 ∧
    t = { s with res := t.res, status := 0 }) ∧
  mulrs16 (-32768) (-32768) = 16384 ∧ mulrs16 (-32768) 32767 = -16384 ∧
  mulrs16 1000 1137 = 17 ∧ mulrs16 (-1000) 1137 = -18 ∧ mulrs16 1 1 = 0 ∧ mulrs16 (-1) 1 = -1 ∧
  (∀ (s : State) (w : Word), field w 31 28 = 0xB → field w 27 0 ≠ 0 →
    s.writeCmd w = .next (s.raise .illegal w))

/-- R127, R134: `CLZ32` counts the zero bits above the highest 1 bit of `OPA`; 32 for 0. -/
def Obligations.Clz32Result : Prop :=
  encode .clz32 = 0xC0000000 ∧
  (∀ s : State, ∃ t, exec .clz32 s = .next t ∧
    t.res.toNat ≤ 32 ∧
    s.opa.toNat < 2 ^ (32 - t.res.toNat) ∧
    (s.opa = 0 → t.res.toNat = 32) ∧
    (s.opa ≠ 0 → t.res.toNat ≤ 31 ∧ 2 ^ (31 - t.res.toNat) ≤ s.opa.toNat) ∧
    t = { s with res := t.res, status := 0 }) ∧
  (∀ (s : State) (w : Word), field w 31 28 = 0xC → field w 27 0 ≠ 0 →
    s.writeCmd w = .next (s.raise .illegal w))

/-! ### Autocorrelation (41_autocorrelation.md) -/

/-- R144, R145, R149: a successful `ACORR` writes `RMEM[0 .. order]` with the exact lag sums shifted by
the one scale of lag 0, and `SCALE`, `OUTLEN` and `STATUS`; nothing else. -/
def Obligations.AcorrResult : Prop :=
  ∀ (s : State) (n order : Nat), s.cfg.Legal → AcorrLegal s.cfg n order →
    let prod : Nat → Int := fun k => ∑ j ∈ Finset.range (n - k), s.sample j * s.sample (j + k)
    ∃ t, exec (.acorr n order) s = .next t ∧
      (∀ k, k ≤ order → (t.rmem k).toInt = prod k / 2 ^ scaleOf (prod 0)) ∧
      t.scale.toNat = scaleOf (prod 0) ∧
      t.outlen.toNat = order + 1 ∧
      (∀ a, a < rmemAddr 0 ∨ rmemAddr (order + 1) ≤ a →
        Memory.find t.mem a = Memory.find s.mem a) ∧
      t = { s with mem := t.mem, scale := t.scale, outlen := t.outlen, status := 0 }

/-- R152: on a block with a vector path the group-wise sums are the sums of `ACORR`, and `ACORRV`
completes exactly as `ACORR` does, whatever the group width. -/
def Obligations.AcorrvEqualsAcorr : Prop :=
  ∀ (s : State) (n order : Nat), (s.cfg.lanes = 4 ∨ s.cfg.lanes = 8) → AcorrLegal s.cfg n order →
    (∀ k, groupedLagSum s.cfg.lanes s.sample n k =
      ∑ j ∈ Finset.range (n - k), s.sample j * s.sample (j + k)) ∧
    ∃ t, exec (.acorrv n order) s = .next t ∧ exec (.acorr n order) s = .next t ∧ t.status = 0

/-- R151, R152: group-wise summation gives the exact lag sum, for every group width and every frame. -/
def Obligations.GroupwiseSumIsTheLagSum : Prop :=
  ∀ (lanes : Nat) (x : Nat → Int) (n k : Nat),
    groupedLagSum lanes x n k = ∑ j ∈ Finset.range (n - k), x j * x (j + k)

/-- R141, R101, R213: the checks of `ACORR` and `ACORRV` in their order, and what each raises. That the
recorded word is `encode` of the command, also for a command no word decodes to, is the model's
(notes/assumptions/11.md). -/
def Obligations.AutocorrelationPreconditions : Prop :=
  ∀ (s : State) (n order : Nat),
    (¬ (n % 4 = 0 ∧ 8 ≤ n ∧ n ≤ s.cfg.nmax) →
      exec (.acorr n order) s = .next (s.raise .len (encode (.acorr n order))) ∧
      (s.cfg.lanes ≠ 1 →
        exec (.acorrv n order) s = .next (s.raise .len (encode (.acorrv n order))))) ∧
    (n % 4 = 0 ∧ 8 ≤ n ∧ n ≤ s.cfg.nmax → ¬ (order < n ∧ order ≤ s.cfg.ordmax) →
      exec (.acorr n order) s = .next (s.raise .order (encode (.acorr n order))) ∧
      (s.cfg.lanes ≠ 1 →
        exec (.acorrv n order) s = .next (s.raise .order (encode (.acorrv n order))))) ∧
    (s.cfg.lanes = 1 →
      exec (.acorrv n order) s = .next (s.raise .illegal (encode (.acorrv n order))))

/-- R146: no partial sum of a lag leaves `[-n * 2^30, n * 2^30]`, and with a legal frame length that is
within `2^45`. -/
def Obligations.LagSumsFitTheAccumulator : Prop :=
  ∀ (s : State) (n k m : Nat), s.cfg.Legal → n ≤ s.cfg.nmax → m ≤ n - k →
    |∑ j ∈ Finset.range m, s.sample j * s.sample (j + k)| ≤ n * 2 ^ 30 ∧
    (n : Int) * 2 ^ 30 ≤ s.cfg.nmax * 2 ^ 30 ∧ (s.cfg.nmax : Int) * 2 ^ 30 ≤ 2 ^ 45

/-- R147: the energy of a legal frame is in `0 .. 2^45`, its scale in `0 .. 15`, and 0 exactly when the
energy fits 31 bits; with at most 256 samples the scale is at most 8. -/
def Obligations.ScaleRange : Prop :=
  ∀ (s : State) (n : Nat), s.cfg.Legal → n ≤ s.cfg.nmax →
    let prod0 : Int := ∑ j ∈ Finset.range n, s.sample j * s.sample j
    0 ≤ prod0 ∧ prod0 ≤ 2 ^ 45 ∧ scaleOf prod0 ≤ 15 ∧
    (scaleOf prod0 = 0 ↔ prod0 ≤ 2 ^ 31 - 1) ∧
    (n ≤ 256 → prod0 ≤ 2 ^ 38 ∧ scaleOf prod0 ≤ 8)

/-- R148: every lag sum is bounded by the energy, so that every coefficient fits `int32` exactly and lies
between `-r[0] - 1` and `r[0]`; a scaled `r[0]` uses all its bits. -/
def Obligations.CoefficientsFitExactly : Prop :=
  ∀ (s : State) (n : Nat), s.cfg.Legal → n ≤ s.cfg.nmax →
    let prod : Nat → Int := fun k => ∑ j ∈ Finset.range (n - k), s.sample j * s.sample (j + k)
    let r : Nat → Int := fun k => prod k / 2 ^ scaleOf (prod 0)
    (0 < scaleOf (prod 0) → 2 ^ 30 ≤ r 0) ∧ r 0 ≤ 2 ^ 31 - 1 ∧
    ∀ k, |prod k| ≤ prod 0 ∧ -r 0 - 1 ≤ r k ∧ r k ≤ r 0 ∧ -2 ^ 31 ≤ r k ∧ r k ≤ 2 ^ 31 - 1

/-- R154: what holds after every successful `ACORR` and `ACORRV`: `r[0]` is the exactly shifted energy
and not negative; the scale is minimal; negating the frame changes no coefficient and not the
scale; the coefficients are bounded by `r[0]`. -/
def Obligations.AutocorrelationProperties : Prop :=
  ∀ (s t : State) (n order : Nat) (i : Instr), s.cfg.Legal →
    (i = .acorr n order ∨ i = .acorrv n order) → exec i s = .next t → t.status = 0 →
    0 ≤ (t.rmem 0).toInt ∧
    (t.rmem 0).toInt =
      (∑ j ∈ Finset.range n, s.sample j * s.sample j) / 2 ^ t.scale.toNat ∧
    (0 < t.scale.toNat →
      2 ^ 31 ≤ (∑ j ∈ Finset.range n, s.sample j * s.sample j) / 2 ^ (t.scale.toNat - 1)) ∧
    (∀ s' t' : State, s'.cfg = s.cfg → (∀ j, j < n → s'.sample j = -s.sample j) →
      exec i s' = .next t' →
      t'.scale = t.scale ∧ ∀ k, k ≤ order → t'.rmem k = t.rmem k) ∧
    (∀ k, k ≤ order → -(t.rmem 0).toInt - 1 ≤ (t.rmem k).toInt ∧
      (t.rmem k).toInt ≤ (t.rmem 0).toInt)

/-- R149: the autocorrelation is stateless: the same command on the same frame gives the same results,
whatever ran before. -/
def Obligations.AutocorrelationIsStateless : Prop :=
  ∀ (s s' t t' : State) (n order : Nat) (i : Instr),
    (i = .acorr n order ∨ i = .acorrv n order) → s.cfg = s'.cfg →
    (∀ j, j < n → s.sample j = s'.sample j) → exec i s = .next t → exec i s' = .next t' →
    t.status = t'.status ∧
    (t.status = 0 → t.scale = t'.scale ∧ t.outlen = t'.outlen ∧
      ∀ k, k ≤ order → t.rmem k = t'.rmem k)

/-- R158: the source's worked scenario. -/
def Obligations.SourceScenarioAutocorrelation : Prop :=
  ∀ s : State, s.cfg.Legal → 2 ≤ s.cfg.ordmax → (∀ j, j < 8 → s.sample j = j + 1) →
    ∃ t, exec (.acorr 8 2) s = .next t ∧ t.status = 0 ∧
      t.rmem 0 = 204 ∧ t.rmem 1 = 168 ∧ t.rmem 2 = 133 ∧ t.scale = 0 ∧ t.outlen = 3

/-! ### The decimator (42_allpass_decimator.md) -/

/-- R174: no value inside a section leaves its width, and the final truncation changes nothing. -/
def Obligations.SectionWidths : Prop :=
  ∀ s a acc : Int, -32768 ≤ s → s ≤ 32767 → -32767 ≤ a → a ≤ 32767 → -2 ^ 31 ≤ acc →
    acc ≤ 2 ^ 31 - 1 →
    let p1 := mulrs16 s a
    let b := satAdd32 (p1 * 2) acc
    let bh := asr b 16
    let p2 := mulrs16 bh (-a)
    (-16384 ≤ p1 ∧ p1 ≤ 16384) ∧ (-32768 ≤ p1 * 2 ∧ p1 * 2 ≤ 32768) ∧
    (-2 ^ 31 ≤ b ∧ b ≤ 2 ^ 31 - 1) ∧ (-32768 ≤ bh ∧ bh ≤ 32767) ∧ trunc16 bh = bh ∧
    (-32767 ≤ -a ∧ -a ≤ 32767) ∧ (-32768 ≤ p2 * 2 ∧ p2 * 2 ≤ 32768) ∧
    (-2 ^ 31 ≤ s * 65536 ∧ s * 65536 ≤ 2 ^ 31 - 65536) ∧
    pattern32 (s * 65536) = pattern32 s <<< 16 ∧
    apSection s a acc = (bh, satAdd32 (p2 * 2) (s * 65536))

/-- R173, R175 to R181: a successful `DECIM` sends the even samples through the upper filter and the
previous frame's last sample and the odd samples but the last through the lower filter, adds the two
with saturation, and keeps the last sample and the four accumulators in the context; it writes
`YMEM[0 .. N/2 - 1]`, the context, `OUTLEN` and `STATUS`, nothing else. -/
def Obligations.DecimFiltersBothBranches : Prop :=
  ∀ (s : State) (n c : Nat), s.cfg.Legal → DecimLegal s n c →
    ∃ t, exec (.decim n c) s = .next t ∧
      (∀ m, m < n / 2 → (t.ymem m).toInt =
        max (-32768) (min 32767
          ((s.lowerBranch n c).1.getD m 0 + (s.upperBranch n c).1.getD m 0))) ∧
      (t.ctx c).valid = true ∧
      (t.ctx c).u0.toInt = (s.upperBranch n c).2.1 ∧
      (t.ctx c).u1.toInt = (s.upperBranch n c).2.2 ∧
      (t.ctx c).l0.toInt = (s.lowerBranch n c).2.1 ∧
      (t.ctx c).l1.toInt = (s.lowerBranch n c).2.2 ∧
      (t.ctx c).carry.toInt = s.sample (n - 1) * 65536 ∧
      t.outlen.toNat = n / 2 ∧
      (∀ d, d ≠ c → t.ctx d = s.ctx d) ∧
      (∀ a, a < ymemAddr 0 ∨ ymemAddr (n / 2) ≤ a →
        Memory.find t.mem a = Memory.find s.mem a) ∧
      t = { s with ctxs := t.ctxs, mem := t.mem, outlen := t.outlen, status := 0 }

/-- R171, R213: the checks of `DECIM` in their order, and what each raises. That the recorded word of a
decoded command is `encode` of it, also where no word decodes to it, is the model's
(notes/assumptions/11.md). -/
def Obligations.DecimPreconditions : Prop :=
  ∀ (s : State) (n c : Nat),
    (¬ c < s.cfg.nctx → exec (.decim n c) s = .next (s.raise .ctx (encode (.decim n c)))) ∧
    (c < s.cfg.nctx → ¬ (n % 2 = 0 ∧ 2 ≤ n ∧ n ≤ s.cfg.nmax) →
      exec (.decim n c) s = .next (s.raise .len (encode (.decim n c)))) ∧
    (c < s.cfg.nctx → n % 2 = 0 ∧ 2 ≤ n ∧ n ≤ s.cfg.nmax → (s.ctx c).valid = false →
      exec (.decim n c) s = .next (s.raise .uninit (encode (.decim n c)))) ∧
    (∀ w : Word, field w 31 28 = 0x2 → field w 27 24 ≠ 0 →
      s.writeCmd w = .next (s.raise .illegal w))

/-- R185: a stream's output and final context do not depend on how it is cut into frames. `s3` holds the
whole frame, `s1` its first part, `s2` its second part with the context the first part left. -/
def Obligations.FrameCutIndependence : Prop :=
  ∀ (s1 s2 s3 t1 t2 t3 : State) (n1 n2 c : Nat), s1.cfg.Legal →
    s2.cfg = s1.cfg → s3.cfg = s1.cfg → DecimLegal s1 n1 c → n2 % 2 = 0 → 2 ≤ n2 →
    n1 + n2 ≤ s1.cfg.nmax → s3.ctx c = s1.ctx c →
    (∀ j, j < n1 → s3.sample j = s1.sample j) →
    (∀ j, j < n2 → s3.sample (n1 + j) = s2.sample j) →
    exec (.decim n1 c) s1 = .next t1 → s2.ctx c = t1.ctx c → exec (.decim n2 c) s2 = .next t2 →
    exec (.decim (n1 + n2) c) s3 = .next t3 →
    t3.ctx c = t2.ctx c ∧
    (∀ m, m < n1 / 2 → t3.ymem m = t1.ymem m) ∧
    (∀ m, m < n2 / 2 → t3.ymem (n1 / 2 + m) = t2.ymem m)

/-- R182: the two branches may run in either order, and within a branch section 0 may run over the whole
sub-sequence before section 1. -/
def Obligations.BranchOrderDoesNotMatter : Prop :=
  (∀ (a0 a1 b0 b1 u0 u1 l0 l1 : Int) (count : Nat) (wbuf : List Int),
    let upper := apFilter a0 a1 count 1 u0 u1 wbuf
    let lower := apFilter b0 b1 count 0 l0 l1 upper.2.2
    let lowerFirst := apFilter b0 b1 count 0 l0 l1 wbuf
    let upperSecond := apFilter a0 a1 count 1 u0 u1 lowerFirst.2.2
    upperSecond = (upper.1, upper.2.1, lower.2.2) ∧
      lowerFirst.1 = lower.1 ∧ lowerFirst.2.1 = lower.2.1) ∧
  (∀ (a0 a1 acc0 acc1 : Int) (xs : List Int),
    let first := sectionPass a0 acc0 xs
    let second := sectionPass a1 acc1 first.1
    branch a0 a1 acc0 acc1 xs = (second.1, first.2, second.2))

/-- R186: with a zero coefficient a section is a one-sample delay; with four zero coefficients and a
zeroed context, output `m` is the saturated sum of stream samples `2m - 5` and `2m - 4`. -/
def Obligations.ZeroCoefficientsDelay : Prop :=
  (∀ s acc : Int, -32768 ≤ s → s ≤ 32767 → -2 ^ 31 ≤ acc → acc ≤ 2 ^ 31 - 1 →
    apSection s 0 acc = (acc / 65536, s * 65536)) ∧
  (∀ (s t : State) (n c : Nat), s.cfg.Legal → DecimLegal s n c → s.ctx c = ApContext.zeroed →
    s.cfg.apUpper0 = 0 → s.cfg.apUpper1 = 0 → s.cfg.apLower0 = 0 → s.cfg.apLower1 = 0 →
    exec (.decim n c) s = .next t →
    ∀ m, m < n / 2 → (t.ymem m).toInt =
      satAdd16 (if 5 ≤ 2 * m then s.sample (2 * m - 5) else 0)
        (if 4 ≤ 2 * m then s.sample (2 * m - 4) else 0))

/-- R190 (4): a frame of zeros on a zeroed context gives zeros and leaves the context zero, for every
choice of coefficients. -/
def Obligations.ZeroFrameLeavesZeroState : Prop :=
  ∀ (s : State) (n c : Nat), s.cfg.Legal → DecimLegal s n c → s.ctx c = ApContext.zeroed →
    (∀ j, j < n → s.sample j = 0) →
    ∃ t, exec (.decim n c) s = .next t ∧ t.status = 0 ∧ t.outlen.toNat = n / 2 ∧
      t.ctx c = ApContext.zeroed ∧ ∀ m, m < n / 2 → t.ymem m = 0

/-- R180, R190 (3): `DECIM` reads the frame, its context and the parameters, and nothing else: the same
frame on the same context gives the same output and leaves the same context. -/
def Obligations.DecimReadsOnlyFrameAndContext : Prop :=
  ∀ (s s' t t' : State) (n c : Nat), s.cfg = s'.cfg → s.ctx c = s'.ctx c → DecimLegal s n c →
    s.cfg.nctx ≤ 32 → (∀ j, j < n → s.sample j = s'.sample j) →
    exec (.decim n c) s = .next t → exec (.decim n c) s' = .next t' →
    t.ctx c = t'.ctx c ∧ t.outlen = t'.outlen ∧ t.status = t'.status ∧
      ∀ m, m < n / 2 → t.ymem m = t'.ymem m

/-- R190 (2): there are two frames and coefficients for which the order of the frames changes what
decimating the first of them gives. -/
def Obligations.FrameOrderMatters : Prop :=
  ∃ (cfg : Config) (a b : List Int), cfg.Legal ∧ a.length = 8 ∧ b.length = 8 ∧
    (∀ v ∈ a ++ b, -32768 ≤ v ∧ v ≤ 32767) ∧
    (decimate cfg ApContext.zeroed 8 a).1 ≠
      (decimate cfg (decimate cfg ApContext.zeroed 8 b).2 8 a).1

/-! ### Stream control (43_stream_control.md) -/

/-- R201, R202: a successful `APINIT c` zeroes all five cells of context `c` and marks it initialised, so
that the next frame's buffer starts with 0; it changes nothing else but `STATUS`. -/
def Obligations.ApinitZeroesItsContext : Prop :=
  ∀ (s : State) (c : Nat), s.cfg.Legal → c < s.cfg.nctx →
    ∃ t, exec (.apinit c) s = .next t ∧
      (t.ctx c).valid = true ∧ (t.ctx c).u0 = 0 ∧ (t.ctx c).u1 = 0 ∧ (t.ctx c).l0 = 0 ∧
      (t.ctx c).l1 = 0 ∧ (t.ctx c).carry = 0 ∧
      (∀ frame, (workingBuffer (t.ctx c).carry frame).getD 0 1 = 0) ∧
      (∀ d, d ≠ c → t.ctx d = s.ctx d) ∧
      t = { s with ctxs := t.ctxs, status := 0 }

/-- R200: what `APINIT` raises. That the word recorded with `E_CTX` is `encode` of the command, also where
no word decodes to it, is the model's (notes/assumptions/11.md). -/
def Obligations.ApinitPreconditions : Prop :=
  (∀ (s : State) (c : Nat), s.cfg.nctx ≤ c →
    exec (.apinit c) s = .next (s.raise .ctx (encode (.apinit c)))) ∧
  (∀ (s : State) (w : Word), field w 31 28 = 0x3 → field w 27 24 ≠ 0 ∨ field w 15 0 ≠ 0 →
    s.writeCmd w = .next (s.raise .illegal w))

/-! ### Errors (60_exceptions.md) -/

/-- R216: a word that fails writes its code to `STATUS`, the code's bit to `ESTICKY` and itself to
`ECMD`, and changes nothing else. -/
def Obligations.FailedCommandWritesOnlyItsRecord : Prop :=
  ∀ (s t : State) (w : Word), s.writeCmd w = .next t → t.status ≠ 0 →
    ∃ code : Nat, 1 ≤ code ∧ code ≤ 5 ∧
      t = { s with
        status := BitVec.ofNat 32 code
        esticky := s.esticky ||| BitVec.ofNat 32 (2 ^ code)
        ecmd := w }

/-- R212: which command can raise which code. -/
def Obligations.CodesEachCommandCanRaise : Prop :=
  ∀ (i : Instr) (s t : State), exec i s = .next t →
    match i with
    | .acorr _ _ => t.status.toNat ∈ [0, 3, 4]
    | .acorrv _ _ => t.status.toNat ∈ [0, 1, 3, 4] ∧ (t.status.toNat = 1 ↔ s.cfg.lanes = 1)
    | .decim _ _ => t.status.toNat ∈ [0, 2, 3, 5]
    | .apinit _ => t.status.toNat ∈ [0, 2]
    | .sadd32 => t.status.toNat = 0
    | .sadd16 => t.status.toNat = 0
    | .trunc16 => t.status.toNat = 0
    | .mulrs16 => t.status.toNat = 0
    | .clz32 => t.status.toNat = 0

/-- R217: a command does not see the errors before it: with any other error record it does the same; a
successful one leaves `ECMD` and `ESTICKY`, and none clears a bit of `ESTICKY`. -/
def Obligations.ErrorRecordDoesNotInfluenceCommands : Prop :=
  ∀ (s t : State) (w status esticky ecmd : Word), s.writeCmd w = .next t →
    (t.status = 0 → t.ecmd = s.ecmd ∧ t.esticky = s.esticky) ∧
    s.esticky &&& t.esticky = s.esticky ∧
    ∃ t', State.writeCmd { s with status := status, esticky := esticky, ecmd := ecmd } w = .next t' ∧
      t' = { t with esticky := t'.esticky, ecmd := t'.ecmd }

/-- R218: a failed word fails again with the same code on every state with the same parameters and, for
`DECIM`, the same valid bit of its context; and `APINIT` repairs a `DECIM` that failed with
`E_UNINIT`. -/
def Obligations.FailuresAreReproducible : Prop :=
  (∀ (s s' t t' : State) (w : Word), s'.cfg = s.cfg →
    (∀ n c, decodeWord w = .command (.decim n c) → (s'.ctx c).valid = (s.ctx c).valid) →
    s.writeCmd w = .next t → t.status ≠ 0 → s'.writeCmd w = .next t' → t'.status = t.status) ∧
  (∀ (s t : State) (n c : Nat), s.cfg.Legal → exec (.decim n c) s = .next t → t.status.toNat = 5 →
    ∃ t1 t2, exec (.apinit c) t = .next t1 ∧ exec (.decim n c) t1 = .next t2 ∧ t2.status = 0)

/-! ### State and the host port (10_state.md, 20_memory.md) -/

/-- R33, R34, R36: the fields of the constant registers. -/
def Obligations.ConstantRegisters : Prop :=
  ∀ s : State, s.cfg.Legal →
    (∃ w, s.readReg .config0 = some w ∧ field w 15 0 = s.cfg.nmax ∧
      field w 27 16 = s.cfg.ordmax ∧ field w 31 28 = s.cfg.lanes) ∧
    (∃ w, s.readReg .config1 = some w ∧ field w 7 0 = s.cfg.nctx ∧
      field w 15 8 = 1 ∧ field w 31 16 = 0) ∧
    (∃ w, s.readReg .apcu0 = some w ∧ w.toInt = s.cfg.apUpper0) ∧
    (∃ w, s.readReg .apcu1 = some w ∧ w.toInt = s.cfg.apUpper1) ∧
    (∃ w, s.readReg .apcl0 = some w ∧ w.toInt = s.cfg.apLower0) ∧
    (∃ w, s.readReg .apcl1 = some w ∧ w.toInt = s.cfg.apLower1)

/-- R35: bit `c` of `APVALID` is `APV[c]` for `c < NCTX`; the other bits are zero. -/
def Obligations.ApvalidShowsTheValidBits : Prop :=
  ∀ (s : State) (c : Nat), c < 32 →
    ∃ w, s.readReg .apvalid = some w ∧
      w.getLsbD c = (decide (c < s.cfg.nctx) && (s.ctx c).valid)

/-- R61, R62, R64, R70: at the offsets of R37, R43, R45 to R47 a read with the one legal size answers the
register, the cell of the context in the order of R40, or the element, which is the value of its own
bytes where they are written; every other read is refused; no read changes a state of the block. The
response in State is the model's (notes/assumptions/4.md, 5.md), as are the lanes of an element (6.md)
and what an unwritten element and a cell of an uninitialised context read as (2.md, 3.md). -/
def Obligations.ReadsAnswerTheReadableLocations : Prop :=
  ∀ (s : State) (off n : Nat) (rest : List HostOp), s.cfg.Legal → s.pending = .read off n :: rest →
    let s' : State := { s with pending := rest, hpc := s.hpc + 1, resp := .ack }
    let answers : PortResponse → Prop := fun r => step s = .next { s' with resp := r }
    (n = 4 →
      (off = 0x004 → answers (.data32 s.status)) ∧
      (off = 0x008 → answers (.data32 s.esticky)) ∧
      (off = 0x00C → answers (.data32 s.ecmd)) ∧
      (off = 0x010 → answers (.data32 s.scale)) ∧
      (off = 0x014 → answers (.data32 s.outlen)) ∧
      (off = 0x018 → answers (.data32 s.opa)) ∧
      (off = 0x01C → answers (.data32 s.opb)) ∧
      (off = 0x020 → answers (.data32 s.res)) ∧
      (off = 0x024 → ∃ w, answers (.data32 w) ∧ field w 15 0 = s.cfg.nmax ∧
        field w 27 16 = s.cfg.ordmax ∧ field w 31 28 = s.cfg.lanes) ∧
      (off = 0x028 → ∃ w, answers (.data32 w) ∧ field w 7 0 = s.cfg.nctx ∧
        field w 15 8 = 1 ∧ field w 31 16 = 0) ∧
      (off = 0x02C → ∃ w, answers (.data32 w) ∧
        ∀ c, c < 32 → w.getLsbD c = (decide (c < s.cfg.nctx) && (s.ctx c).valid)) ∧
      (off = 0x030 → ∃ w, answers (.data32 w) ∧ w.toInt = s.cfg.apUpper0) ∧
      (off = 0x034 → ∃ w, answers (.data32 w) ∧ w.toInt = s.cfg.apUpper1) ∧
      (off = 0x038 → ∃ w, answers (.data32 w) ∧ w.toInt = s.cfg.apLower0) ∧
      (off = 0x03C → ∃ w, answers (.data32 w) ∧ w.toInt = s.cfg.apLower1)) ∧
    (∀ c, n = 4 → c < s.cfg.nctx → (s.ctx c).valid = true →
      (off = 0x400 + 0x20 * c → answers (.data32 (s.ctx c).u0)) ∧
      (off = 0x400 + 0x20 * c + 4 → answers (.data32 (s.ctx c).u1)) ∧
      (off = 0x400 + 0x20 * c + 8 → answers (.data32 (s.ctx c).l0)) ∧
      (off = 0x400 + 0x20 * c + 12 → answers (.data32 (s.ctx c).l1)) ∧
      (off = 0x400 + 0x20 * c + 16 → answers (.data32 (s.ctx c).carry))) ∧
    (∀ c i, n = 4 → c < s.cfg.nctx → (s.ctx c).valid = false → i ≤ 4 →
      off = 0x400 + 0x20 * c + 4 * i →
      answers (.data32 (Config.unspecifiedCell (s.hpc + 1) c i))) ∧
    (∀ i, n = 2 → i < s.cfg.nmax → off = 0x10000 + 2 * i →
      answers (.data16 (s'.xmem i)) ∧
      ∀ b0 b1, Memory.find s.mem off = some b0 → Memory.find s.mem (off + 1) = some b1 →
        s'.xmem i = b1 ++ b0 ∧ s.xmem i = b1 ++ b0) ∧
    (∀ i, n = 2 → i < s.cfg.nmax / 2 → off = 0x20000 + 2 * i →
      answers (.data16 (s'.ymem i)) ∧
      ∀ b0 b1, Memory.find s.mem off = some b0 → Memory.find s.mem (off + 1) = some b1 →
        s'.ymem i = b1 ++ b0 ∧ s.ymem i = b1 ++ b0) ∧
    (∀ k, n = 4 → k ≤ s.cfg.ordmax → off = 0x30000 + 4 * k →
      answers (.data32 (s'.rmem k)) ∧
      ∀ b0 b1 b2 b3, Memory.find s.mem off = some b0 → Memory.find s.mem (off + 1) = some b1 →
        Memory.find s.mem (off + 2) = some b2 → Memory.find s.mem (off + 3) = some b3 →
        s'.rmem k = (b3 ++ b2) ++ (b1 ++ b0) ∧ s.rmem k = (b3 ++ b2) ++ (b1 ++ b0)) ∧
    (¬ Readable s.cfg off n → answers (.busError off))

/-- R63, R66: a write to `OPA` or `OPB` at its offset of R37 stores the word; a write to `XMEM[i]` at its
offset of R45 makes the sample the low 16 bits read as a signed number, in the element's own two
bytes, and leaves every other byte of memory; each changes nothing else. The bytes and the response
are the model's (notes/assumptions/5.md, 6.md). -/
def Obligations.WritesStoreTheirLocation : Prop :=
  ∀ (s : State) (off n : Nat) (v : Word) (rest : List HostOp), s.cfg.Legal →
    s.pending = .write off n v :: rest →
    (n = 4 → off = 0x018 →
      step s = .next { s with pending := rest, hpc := s.hpc + 1, resp := .ack, opa := v }) ∧
    (n = 4 → off = 0x01C →
      step s = .next { s with pending := rest, hpc := s.hpc + 1, resp := .ack, opb := v }) ∧
    (∀ i, n = 2 → i < s.cfg.nmax → off = 0x10000 + 2 * i → ∃ t, step s = .next t ∧
      t.xmem i = v.extractLsb' 0 16 ∧ t.sample i = (v.extractLsb' 0 16).toInt ∧
      Memory.find t.mem off = some (v.extractLsb' 0 8) ∧
      Memory.find t.mem (off + 1) = some (v.extractLsb' 8 8) ∧
      (∀ a, a < off ∨ off + 2 ≤ a → Memory.find t.mem a = Memory.find s.mem a) ∧
      t = { s with pending := rest, hpc := s.hpc + 1, resp := .ack, mem := t.mem })

/-- R63, R64: a write that is not one of the legal writes to `CMD`, `OPA`, `OPB` or `XMEM` is refused; the
block goes on after the error response, which is the model's choice (notes/assumptions/4.md). -/
def Obligations.OtherWritesAreRefused : Prop :=
  ∀ (s : State) (off n : Nat) (v : Word) (rest : List HostOp), s.cfg.Legal →
    s.pending = .write off n v :: rest → ¬ Writable s.cfg off n →
    step s = .next { s with pending := rest, hpc := s.hpc + 1, resp := .busError off }

/-- R64: an access that ends in a bus error has changed no state of the block, `STATUS`, `ESTICKY` and
`ECMD` included; the block goes on after the error response, which is the model's choice
(notes/assumptions/4.md). -/
def Obligations.BusErrorChangesNothing : Prop :=
  ∀ (s t : State) (op : HostOp) (rest : List HostOp) (off : Nat), s.pending = op :: rest →
    step s = .next t → t.resp = .busError off →
    ((∃ n, op = .read off n) ∨ ∃ n v, op = .write off n v) ∧
    t = { s with pending := rest, hpc := s.hpc + 1, resp := .busError off }

/-- R22: `OPA` and `OPB` are written only by the host; `RES` only by a helper command that completes; the
frame commands and `APINIT` do not read the operand registers. (Reset clears all three, R52.) -/
def Obligations.WhoWritesTheGeneralRegisters : Prop :=
  (∀ s t : State, step s = .next t → ¬ s.NextIsReset →
    (t.opa ≠ s.opa → ∃ v rest, s.pending = .write 0x018 4 v :: rest ∧ t.opa = v) ∧
    (t.opb ≠ s.opb → ∃ v rest, s.pending = .write 0x01C 4 v :: rest ∧ t.opb = v) ∧
    (t.res ≠ s.res → t.status = 0 ∧
      ∃ w, s.NextIsCommandWrite w ∧
        w ∈ [0x80000000, 0x90000000, 0xA0000000, 0xB0000000, (0xC0000000 : Word)])) ∧
  (∀ (s t : State) (i : Instr) (a b : Word), i.opc < 8 → exec i s = .next t →
    exec i { s with opa := a, opb := b } = .next { t with opa := a, opb := b })

/-- R42: context `c` changes only by reset or by a successful `DECIM` or `APINIT` of context `c`, and a
command of context `c` neither reads nor writes another context. -/
def Obligations.WhoWritesTheContexts : Prop :=
  (∀ (s t : State) (c : Nat) (hc : c < 32), step s = .next t → t.ctxs[c] ≠ s.ctxs[c] →
    s.NextIsReset ∨ (t.status = 0 ∧ ∃ w, s.NextIsCommandWrite w ∧
      (decodeWord w = .command (.apinit c) ∨ ∃ n, decodeWord w = .command (.decim n c)))) ∧
  (∀ (s t : State) (n c d : Nat) (x : ApContext), d ≠ c →
    (exec (.decim n c) s = .next t → exec (.decim n c) (s.setCtx d x) = .next (t.setCtx d x)) ∧
    (exec (.apinit c) s = .next t → exec (.apinit c) (s.setCtx d x) = .next (t.setCtx d x)))

/-- R203: nothing but reset clears a valid bit. -/
def Obligations.OnlyResetClearsAValidBit : Prop :=
  ∀ (s t : State) (c : Nat) (hc : c < 32), step s = .next t → ¬ s.NextIsReset →
    s.ctxs[c].valid = true → t.ctxs[c].valid = true

/-- R45 to R47: no command writes `XMEM`; only a successful `DECIM` writes `YMEM`, exactly its first
`N/2` elements; only a successful `ACORR` or `ACORRV` writes `RMEM`, exactly elements `0 .. order`. -/
def Obligations.WhoWritesTheMemories : Prop :=
  ∀ (i : Instr) (s t : State) (a : Nat), exec i s = .next t →
    Memory.find t.mem a ≠ Memory.find s.mem a →
    t.status = 0 ∧
    ((∃ n c, i = .decim n c ∧ ymemAddr 0 ≤ a ∧ a < ymemAddr (n / 2)) ∨
     (∃ n order, (i = .acorr n order ∨ i = .acorrv n order) ∧
       rmemAddr 0 ≤ a ∧ a < rmemAddr (order + 1)))

/-- R27: nothing but reset clears a bit of `ESTICKY`, and a step after which a command has failed with
code `i` has set bit `i`. -/
def Obligations.StickyErrorsSurvive : Prop :=
  ∀ s t : State, step s = .next t → ¬ s.NextIsReset →
    s.esticky &&& t.esticky = s.esticky ∧
    (∀ w, s.NextIsCommandWrite w → t.status ≠ 0 → t.esticky.getLsbD t.status.toNat = true ∧
      t.ecmd = w)

/-- R52, R240, R243: what reset leaves: every register 0, every valid bit 0, no memory byte with a known
value, the parameters as they were. That reset is a host operation, and that an unwritten byte has no
value, is the model's choice (notes/assumptions/7.md, 2.md). -/
def Obligations.ResetState : Prop :=
  ∀ (s : State) (rest : List HostOp), s.pending = .reset :: rest →
    ∃ t, step s = .next t ∧
      t.status = 0 ∧ t.esticky = 0 ∧ t.ecmd = 0 ∧ t.scale = 0 ∧ t.outlen = 0 ∧
      t.opa = 0 ∧ t.opb = 0 ∧ t.res = 0 ∧
      (∀ c, (t.ctx c).valid = false) ∧ t.readReg .apvalid = some 0 ∧
      (∀ a, Memory.find t.mem a = none) ∧ t.cfg = s.cfg

/-! ### Invariants -/

/-- The state after reset meets every invariant, those of the model's own data among them
(notes/assumptions/6.md, 16.md). -/
def Obligations.ResetMeetsTheInvariant : Prop :=
  ∀ cfg : Config, cfg.Legal → (State.resetWith cfg).Inv

/-- R26 to R28, R211: every step keeps the status registers in agreement: one of the six codes, the
unused bits zero, the current failure in `ESTICKY`, no `ECMD` before the first failure. -/
def Obligations.StatusInvariantKept : Prop :=
  ∀ s t : State, s.StatusInv → step s = .next t → t.StatusInv

/-- R45 to R47, R61, R70: every step keeps the memories in canonical form, with whole elements inside
their windows only. The bytes are the model's (notes/assumptions/6.md). -/
def Obligations.MemoryInvariantKept : Prop :=
  ∀ s t : State, s.cfg.Legal → s.MemoryInv → step s = .next t → t.MemoryInv

/-- R40, R41, R175: every step keeps the contexts: none initialised at or above `NCTX`, every carry cell
of an initialised one a sample times `2^16`. That State has room for 32 is the model's
(notes/assumptions/16.md). -/
def Obligations.ContextInvariantKept : Prop :=
  ∀ s t : State, s.ContextInv → step s = .next t → t.ContextInv

/-- R29, R30, R147: every step keeps the scale in `0 .. 15` and the result length within its memory. -/
def Obligations.ResultInvariantKept : Prop :=
  ∀ s t : State, s.cfg.Legal → s.ResultInv → step s = .next t → t.ResultInv
end

