-- ==== Sys2Proof/Laws/State.lean ====
section
/-! SUPPORT. What each named update of the state leaves in each field: true by unfolding, so that no later
proof unfolds a record update. -/

namespace Sys2Proof.Machine

open Sys2Proof

section Updates

@[simp] theorem State.raise_cfg (s : State) (code : ErrorCode) (w : Word) :
    (s.raise code w).cfg = s.cfg := rfl

@[simp] theorem State.raise_status (s : State) (code : ErrorCode) (w : Word) :
    (s.raise code w).status = statusWord code.number := rfl

@[simp] theorem State.raise_esticky (s : State) (code : ErrorCode) (w : Word) :
    (s.raise code w).esticky = s.esticky ||| code.stickyBit := rfl

@[simp] theorem State.raise_ecmd (s : State) (code : ErrorCode) (w : Word) :
    (s.raise code w).ecmd = w := rfl

@[simp] theorem State.raise_scale (s : State) (code : ErrorCode) (w : Word) :
    (s.raise code w).scale = s.scale := rfl

@[simp] theorem State.raise_outlen (s : State) (code : ErrorCode) (w : Word) :
    (s.raise code w).outlen = s.outlen := rfl

@[simp] theorem State.raise_opa (s : State) (code : ErrorCode) (w : Word) :
    (s.raise code w).opa = s.opa := rfl

@[simp] theorem State.raise_opb (s : State) (code : ErrorCode) (w : Word) :
    (s.raise code w).opb = s.opb := rfl

@[simp] theorem State.raise_res (s : State) (code : ErrorCode) (w : Word) :
    (s.raise code w).res = s.res := rfl

@[simp] theorem State.raise_ctxs (s : State) (code : ErrorCode) (w : Word) :
    (s.raise code w).ctxs = s.ctxs := rfl

@[simp] theorem State.raise_mem (s : State) (code : ErrorCode) (w : Word) :
    (s.raise code w).mem = s.mem := rfl

@[simp] theorem State.raise_pending (s : State) (code : ErrorCode) (w : Word) :
    (s.raise code w).pending = s.pending := rfl

@[simp] theorem State.raise_hpc (s : State) (code : ErrorCode) (w : Word) :
    (s.raise code w).hpc = s.hpc := rfl

@[simp] theorem State.raise_resp (s : State) (code : ErrorCode) (w : Word) :
    (s.raise code w).resp = s.resp := rfl

@[simp] theorem State.succeed_cfg (s : State) :
    s.succeed.cfg = s.cfg := rfl

@[simp] theorem State.succeed_status (s : State) :
    s.succeed.status = statusWord 0 := rfl

@[simp] theorem State.succeed_esticky (s : State) :
    s.succeed.esticky = s.esticky := rfl

@[simp] theorem State.succeed_ecmd (s : State) :
    s.succeed.ecmd = s.ecmd := rfl

@[simp] theorem State.succeed_scale (s : State) :
    s.succeed.scale = s.scale := rfl

@[simp] theorem State.succeed_outlen (s : State) :
    s.succeed.outlen = s.outlen := rfl

@[simp] theorem State.succeed_opa (s : State) :
    s.succeed.opa = s.opa := rfl

@[simp] theorem State.succeed_opb (s : State) :
    s.succeed.opb = s.opb := rfl

@[simp] theorem State.succeed_res (s : State) :
    s.succeed.res = s.res := rfl

@[simp] theorem State.succeed_ctxs (s : State) :
    s.succeed.ctxs = s.ctxs := rfl

@[simp] theorem State.succeed_mem (s : State) :
    s.succeed.mem = s.mem := rfl

@[simp] theorem State.succeed_pending (s : State) :
    s.succeed.pending = s.pending := rfl

@[simp] theorem State.succeed_hpc (s : State) :
    s.succeed.hpc = s.hpc := rfl

@[simp] theorem State.succeed_resp (s : State) :
    s.succeed.resp = s.resp := rfl

@[simp] theorem State.setRes_cfg (s : State) (v : Int) :
    (s.setRes v).cfg = s.cfg := rfl

@[simp] theorem State.setRes_status (s : State) (v : Int) :
    (s.setRes v).status = s.status := rfl

@[simp] theorem State.setRes_esticky (s : State) (v : Int) :
    (s.setRes v).esticky = s.esticky := rfl

@[simp] theorem State.setRes_ecmd (s : State) (v : Int) :
    (s.setRes v).ecmd = s.ecmd := rfl

@[simp] theorem State.setRes_scale (s : State) (v : Int) :
    (s.setRes v).scale = s.scale := rfl

@[simp] theorem State.setRes_outlen (s : State) (v : Int) :
    (s.setRes v).outlen = s.outlen := rfl

@[simp] theorem State.setRes_opa (s : State) (v : Int) :
    (s.setRes v).opa = s.opa := rfl

@[simp] theorem State.setRes_opb (s : State) (v : Int) :
    (s.setRes v).opb = s.opb := rfl

@[simp] theorem State.setRes_res (s : State) (v : Int) :
    (s.setRes v).res = pattern32 v := rfl

@[simp] theorem State.setRes_ctxs (s : State) (v : Int) :
    (s.setRes v).ctxs = s.ctxs := rfl

@[simp] theorem State.setRes_mem (s : State) (v : Int) :
    (s.setRes v).mem = s.mem := rfl

@[simp] theorem State.setRes_pending (s : State) (v : Int) :
    (s.setRes v).pending = s.pending := rfl

@[simp] theorem State.setRes_hpc (s : State) (v : Int) :
    (s.setRes v).hpc = s.hpc := rfl

@[simp] theorem State.setRes_resp (s : State) (v : Int) :
    (s.setRes v).resp = s.resp := rfl

@[simp] theorem State.setCtx_cfg (s : State) (c : Nat) (x : ApContext) :
    (s.setCtx c x).cfg = s.cfg := rfl

@[simp] theorem State.setCtx_status (s : State) (c : Nat) (x : ApContext) :
    (s.setCtx c x).status = s.status := rfl

@[simp] theorem State.setCtx_esticky (s : State) (c : Nat) (x : ApContext) :
    (s.setCtx c x).esticky = s.esticky := rfl

@[simp] theorem State.setCtx_ecmd (s : State) (c : Nat) (x : ApContext) :
    (s.setCtx c x).ecmd = s.ecmd := rfl

@[simp] theorem State.setCtx_scale (s : State) (c : Nat) (x : ApContext) :
    (s.setCtx c x).scale = s.scale := rfl

@[simp] theorem State.setCtx_outlen (s : State) (c : Nat) (x : ApContext) :
    (s.setCtx c x).outlen = s.outlen := rfl

@[simp] theorem State.setCtx_opa (s : State) (c : Nat) (x : ApContext) :
    (s.setCtx c x).opa = s.opa := rfl

@[simp] theorem State.setCtx_opb (s : State) (c : Nat) (x : ApContext) :
    (s.setCtx c x).opb = s.opb := rfl

@[simp] theorem State.setCtx_res (s : State) (c : Nat) (x : ApContext) :
    (s.setCtx c x).res = s.res := rfl

@[simp] theorem State.setCtx_ctxs (s : State) (c : Nat) (x : ApContext) :
    (s.setCtx c x).ctxs = s.ctxs.setIfInBounds c x := rfl

@[simp] theorem State.setCtx_mem (s : State) (c : Nat) (x : ApContext) :
    (s.setCtx c x).mem = s.mem := rfl

@[simp] theorem State.setCtx_pending (s : State) (c : Nat) (x : ApContext) :
    (s.setCtx c x).pending = s.pending := rfl

@[simp] theorem State.setCtx_hpc (s : State) (c : Nat) (x : ApContext) :
    (s.setCtx c x).hpc = s.hpc := rfl

@[simp] theorem State.setCtx_resp (s : State) (c : Nat) (x : ApContext) :
    (s.setCtx c x).resp = s.resp := rfl

@[simp] theorem State.accept_cfg (s : State) (rest : List HostOp) :
    (s.accept rest).cfg = s.cfg := rfl

@[simp] theorem State.accept_status (s : State) (rest : List HostOp) :
    (s.accept rest).status = s.status := rfl

@[simp] theorem State.accept_esticky (s : State) (rest : List HostOp) :
    (s.accept rest).esticky = s.esticky := rfl

@[simp] theorem State.accept_ecmd (s : State) (rest : List HostOp) :
    (s.accept rest).ecmd = s.ecmd := rfl

@[simp] theorem State.accept_scale (s : State) (rest : List HostOp) :
    (s.accept rest).scale = s.scale := rfl

@[simp] theorem State.accept_outlen (s : State) (rest : List HostOp) :
    (s.accept rest).outlen = s.outlen := rfl

@[simp] theorem State.accept_opa (s : State) (rest : List HostOp) :
    (s.accept rest).opa = s.opa := rfl

@[simp] theorem State.accept_opb (s : State) (rest : List HostOp) :
    (s.accept rest).opb = s.opb := rfl

@[simp] theorem State.accept_res (s : State) (rest : List HostOp) :
    (s.accept rest).res = s.res := rfl

@[simp] theorem State.accept_ctxs (s : State) (rest : List HostOp) :
    (s.accept rest).ctxs = s.ctxs := rfl

@[simp] theorem State.accept_mem (s : State) (rest : List HostOp) :
    (s.accept rest).mem = s.mem := rfl

@[simp] theorem State.accept_pending (s : State) (rest : List HostOp) :
    (s.accept rest).pending = rest := rfl

@[simp] theorem State.accept_hpc (s : State) (rest : List HostOp) :
    (s.accept rest).hpc = s.hpc + 1 := rfl

@[simp] theorem State.accept_resp (s : State) (rest : List HostOp) :
    (s.accept rest).resp = .ack := rfl

@[simp] theorem State.respond_cfg (s : State) (r : PortResponse) :
    (s.respond r).cfg = s.cfg := rfl

@[simp] theorem State.respond_status (s : State) (r : PortResponse) :
    (s.respond r).status = s.status := rfl

@[simp] theorem State.respond_esticky (s : State) (r : PortResponse) :
    (s.respond r).esticky = s.esticky := rfl

@[simp] theorem State.respond_ecmd (s : State) (r : PortResponse) :
    (s.respond r).ecmd = s.ecmd := rfl

@[simp] theorem State.respond_scale (s : State) (r : PortResponse) :
    (s.respond r).scale = s.scale := rfl

@[simp] theorem State.respond_outlen (s : State) (r : PortResponse) :
    (s.respond r).outlen = s.outlen := rfl

@[simp] theorem State.respond_opa (s : State) (r : PortResponse) :
    (s.respond r).opa = s.opa := rfl

@[simp] theorem State.respond_opb (s : State) (r : PortResponse) :
    (s.respond r).opb = s.opb := rfl

@[simp] theorem State.respond_res (s : State) (r : PortResponse) :
    (s.respond r).res = s.res := rfl

@[simp] theorem State.respond_ctxs (s : State) (r : PortResponse) :
    (s.respond r).ctxs = s.ctxs := rfl

@[simp] theorem State.respond_mem (s : State) (r : PortResponse) :
    (s.respond r).mem = s.mem := rfl

@[simp] theorem State.respond_pending (s : State) (r : PortResponse) :
    (s.respond r).pending = s.pending := rfl

@[simp] theorem State.respond_hpc (s : State) (r : PortResponse) :
    (s.respond r).hpc = s.hpc := rfl

@[simp] theorem State.respond_resp (s : State) (r : PortResponse) :
    (s.respond r).resp = r := rfl

@[simp] theorem State.resetBlock_cfg (s : State) :
    s.resetBlock.cfg = s.cfg := rfl

@[simp] theorem State.resetBlock_status (s : State) :
    s.resetBlock.status = 0 := rfl

@[simp] theorem State.resetBlock_esticky (s : State) :
    s.resetBlock.esticky = 0 := rfl

@[simp] theorem State.resetBlock_ecmd (s : State) :
    s.resetBlock.ecmd = 0 := rfl

@[simp] theorem State.resetBlock_scale (s : State) :
    s.resetBlock.scale = 0 := rfl

@[simp] theorem State.resetBlock_outlen (s : State) :
    s.resetBlock.outlen = 0 := rfl

@[simp] theorem State.resetBlock_opa (s : State) :
    s.resetBlock.opa = 0 := rfl

@[simp] theorem State.resetBlock_opb (s : State) :
    s.resetBlock.opb = 0 := rfl

@[simp] theorem State.resetBlock_res (s : State) :
    s.resetBlock.res = 0 := rfl

@[simp] theorem State.resetBlock_ctxs (s : State) :
    s.resetBlock.ctxs = Vector.replicate 32 ApContext.uninitialised := rfl

@[simp] theorem State.resetBlock_mem (s : State) :
    s.resetBlock.mem = [] := rfl

@[simp] theorem State.resetBlock_pending (s : State) :
    s.resetBlock.pending = s.pending := rfl

@[simp] theorem State.resetBlock_hpc (s : State) :
    s.resetBlock.hpc = s.hpc := rfl

@[simp] theorem State.resetBlock_resp (s : State) :
    s.resetBlock.resp = s.resp := rfl

@[simp] theorem State.storeCoefficients_cfg (s : State) (prod : Nat → Int) (order : Nat) :
    (s.storeCoefficients prod order).cfg = s.cfg := rfl

@[simp] theorem State.storeCoefficients_status (s : State) (prod : Nat → Int) (order : Nat) :
    (s.storeCoefficients prod order).status = s.status := rfl

@[simp] theorem State.storeCoefficients_esticky (s : State) (prod : Nat → Int) (order : Nat) :
    (s.storeCoefficients prod order).esticky = s.esticky := rfl

@[simp] theorem State.storeCoefficients_ecmd (s : State) (prod : Nat → Int) (order : Nat) :
    (s.storeCoefficients prod order).ecmd = s.ecmd := rfl

@[simp] theorem State.storeCoefficients_scale (s : State) (prod : Nat → Int) (order : Nat) :
    (s.storeCoefficients prod order).scale = pattern32 (scaleOf (prod 0)) := rfl

@[simp] theorem State.storeCoefficients_outlen (s : State) (prod : Nat → Int) (order : Nat) :
    (s.storeCoefficients prod order).outlen = BitVec.ofNat 32 (order + 1) := rfl

@[simp] theorem State.storeCoefficients_opa (s : State) (prod : Nat → Int) (order : Nat) :
    (s.storeCoefficients prod order).opa = s.opa := rfl

@[simp] theorem State.storeCoefficients_opb (s : State) (prod : Nat → Int) (order : Nat) :
    (s.storeCoefficients prod order).opb = s.opb := rfl

@[simp] theorem State.storeCoefficients_res (s : State) (prod : Nat → Int) (order : Nat) :
    (s.storeCoefficients prod order).res = s.res := rfl

@[simp] theorem State.storeCoefficients_ctxs (s : State) (prod : Nat → Int) (order : Nat) :
    (s.storeCoefficients prod order).ctxs = s.ctxs := rfl

@[simp] theorem State.storeCoefficients_mem (s : State) (prod : Nat → Int) (order : Nat) :
    (s.storeCoefficients prod order).mem = Memory.storeWords s.mem (rmemAddr 0)
      ((List.range (order + 1)).map fun k => pattern32 (asr (prod k) (scaleOf (prod 0)))) := rfl

@[simp] theorem State.storeCoefficients_pending (s : State) (prod : Nat → Int) (order : Nat) :
    (s.storeCoefficients prod order).pending = s.pending := rfl

@[simp] theorem State.storeCoefficients_hpc (s : State) (prod : Nat → Int) (order : Nat) :
    (s.storeCoefficients prod order).hpc = s.hpc := rfl

@[simp] theorem State.storeCoefficients_resp (s : State) (prod : Nat → Int) (order : Nat) :
    (s.storeCoefficients prod order).resp = s.resp := rfl

@[simp] theorem State.storeDecimated_cfg (s : State) (n c : Nat) :
    (s.storeDecimated n c).cfg = s.cfg := rfl

@[simp] theorem State.storeDecimated_status (s : State) (n c : Nat) :
    (s.storeDecimated n c).status = s.status := rfl

@[simp] theorem State.storeDecimated_esticky (s : State) (n c : Nat) :
    (s.storeDecimated n c).esticky = s.esticky := rfl

@[simp] theorem State.storeDecimated_ecmd (s : State) (n c : Nat) :
    (s.storeDecimated n c).ecmd = s.ecmd := rfl

@[simp] theorem State.storeDecimated_scale (s : State) (n c : Nat) :
    (s.storeDecimated n c).scale = s.scale := rfl

@[simp] theorem State.storeDecimated_outlen (s : State) (n c : Nat) :
    (s.storeDecimated n c).outlen = BitVec.ofNat 32 (n / 2) := rfl

@[simp] theorem State.storeDecimated_opa (s : State) (n c : Nat) :
    (s.storeDecimated n c).opa = s.opa := rfl

@[simp] theorem State.storeDecimated_opb (s : State) (n c : Nat) :
    (s.storeDecimated n c).opb = s.opb := rfl

@[simp] theorem State.storeDecimated_res (s : State) (n c : Nat) :
    (s.storeDecimated n c).res = s.res := rfl

@[simp] theorem State.storeDecimated_ctxs (s : State) (n c : Nat) :
    (s.storeDecimated n c).ctxs = s.ctxs.setIfInBounds c (decimate s.cfg (s.ctx c) n (s.frame n)).2 := rfl

@[simp] theorem State.storeDecimated_mem (s : State) (n c : Nat) :
    (s.storeDecimated n c).mem = Memory.storeHalves s.mem (ymemAddr 0)
      ((decimate s.cfg (s.ctx c) n (s.frame n)).1.map pattern16) := rfl

@[simp] theorem State.storeDecimated_pending (s : State) (n c : Nat) :
    (s.storeDecimated n c).pending = s.pending := rfl

@[simp] theorem State.storeDecimated_hpc (s : State) (n c : Nat) :
    (s.storeDecimated n c).hpc = s.hpc := rfl

@[simp] theorem State.storeDecimated_resp (s : State) (n c : Nat) :
    (s.storeDecimated n c).resp = s.resp := rfl

@[simp] theorem State.withFetchWord_cfg (s : State) (nbits w : Nat) :
    (s.withFetchWord nbits w).cfg = s.cfg := rfl

@[simp] theorem State.withFetchWord_status (s : State) (nbits w : Nat) :
    (s.withFetchWord nbits w).status = s.status := rfl

@[simp] theorem State.withFetchWord_esticky (s : State) (nbits w : Nat) :
    (s.withFetchWord nbits w).esticky = s.esticky := rfl

@[simp] theorem State.withFetchWord_ecmd (s : State) (nbits w : Nat) :
    (s.withFetchWord nbits w).ecmd = s.ecmd := rfl

@[simp] theorem State.withFetchWord_scale (s : State) (nbits w : Nat) :
    (s.withFetchWord nbits w).scale = s.scale := rfl

@[simp] theorem State.withFetchWord_outlen (s : State) (nbits w : Nat) :
    (s.withFetchWord nbits w).outlen = s.outlen := rfl

@[simp] theorem State.withFetchWord_opa (s : State) (nbits w : Nat) :
    (s.withFetchWord nbits w).opa = s.opa := rfl

@[simp] theorem State.withFetchWord_opb (s : State) (nbits w : Nat) :
    (s.withFetchWord nbits w).opb = s.opb := rfl

@[simp] theorem State.withFetchWord_res (s : State) (nbits w : Nat) :
    (s.withFetchWord nbits w).res = s.res := rfl

@[simp] theorem State.withFetchWord_ctxs (s : State) (nbits w : Nat) :
    (s.withFetchWord nbits w).ctxs = s.ctxs := rfl

@[simp] theorem State.withFetchWord_mem (s : State) (nbits w : Nat) :
    (s.withFetchWord nbits w).mem = s.mem := rfl

@[simp] theorem State.withFetchWord_pending (s : State) (nbits w : Nat) :
    (s.withFetchWord nbits w).pending = .write Reg.cmd.offset 4 (BitVec.ofNat 32 (w % 2 ^ nbits)) :: s.pending := rfl

@[simp] theorem State.withFetchWord_hpc (s : State) (nbits w : Nat) :
    (s.withFetchWord nbits w).hpc = s.hpc := rfl

@[simp] theorem State.withFetchWord_resp (s : State) (nbits w : Nat) :
    (s.withFetchWord nbits w).resp = s.resp := rfl

@[simp] theorem State.withScript_cfg (s : State) (lines : List ScriptLine) :
    (s.withScript lines).cfg = s.cfg := rfl

@[simp] theorem State.withScript_status (s : State) (lines : List ScriptLine) :
    (s.withScript lines).status = s.status := rfl

@[simp] theorem State.withScript_esticky (s : State) (lines : List ScriptLine) :
    (s.withScript lines).esticky = s.esticky := rfl

@[simp] theorem State.withScript_ecmd (s : State) (lines : List ScriptLine) :
    (s.withScript lines).ecmd = s.ecmd := rfl

@[simp] theorem State.withScript_scale (s : State) (lines : List ScriptLine) :
    (s.withScript lines).scale = s.scale := rfl

@[simp] theorem State.withScript_outlen (s : State) (lines : List ScriptLine) :
    (s.withScript lines).outlen = s.outlen := rfl

@[simp] theorem State.withScript_opa (s : State) (lines : List ScriptLine) :
    (s.withScript lines).opa = s.opa := rfl

@[simp] theorem State.withScript_opb (s : State) (lines : List ScriptLine) :
    (s.withScript lines).opb = s.opb := rfl

@[simp] theorem State.withScript_res (s : State) (lines : List ScriptLine) :
    (s.withScript lines).res = s.res := rfl

@[simp] theorem State.withScript_ctxs (s : State) (lines : List ScriptLine) :
    (s.withScript lines).ctxs = s.ctxs := rfl

@[simp] theorem State.withScript_mem (s : State) (lines : List ScriptLine) :
    (s.withScript lines).mem = s.mem := rfl

@[simp] theorem State.withScript_pending (s : State) (lines : List ScriptLine) :
    (s.withScript lines).pending = lines.flatMap ScriptLine.ops := rfl

@[simp] theorem State.withScript_hpc (s : State) (lines : List ScriptLine) :
    (s.withScript lines).hpc = s.hpc := rfl

@[simp] theorem State.withScript_resp (s : State) (lines : List ScriptLine) :
    (s.withScript lines).resp = s.resp := rfl

end Updates

@[simp] theorem State.resetWith_status (c : Config) : (State.resetWith c).status = 0 := rfl

@[simp] theorem State.resetWith_esticky (c : Config) : (State.resetWith c).esticky = 0 := rfl

@[simp] theorem State.resetWith_ecmd (c : Config) : (State.resetWith c).ecmd = 0 := rfl

@[simp] theorem State.resetWith_scale (c : Config) : (State.resetWith c).scale = 0 := rfl

@[simp] theorem State.resetWith_outlen (c : Config) : (State.resetWith c).outlen = 0 := rfl

@[simp] theorem State.resetWith_opa (c : Config) : (State.resetWith c).opa = 0 := rfl

@[simp] theorem State.resetWith_opb (c : Config) : (State.resetWith c).opb = 0 := rfl

@[simp] theorem State.resetWith_res (c : Config) : (State.resetWith c).res = 0 := rfl

@[simp] theorem State.resetWith_cfg (c : Config) : (State.resetWith c).cfg = c := rfl

@[simp] theorem State.resetWith_mem (c : Config) : (State.resetWith c).mem = [] := rfl

@[simp] theorem State.resetWith_pending (c : Config) : (State.resetWith c).pending = [] := rfl

@[simp] theorem State.resetWith_hpc (c : Config) : (State.resetWith c).hpc = 0 := rfl

@[simp] theorem State.resetWith_resp (c : Config) : (State.resetWith c).resp = .quiet := rfl

@[simp] theorem State.resetWith_ctxs (c : Config) : (State.resetWith c).ctxs = Vector.replicate 32 ApContext.uninitialised := rfl

end Sys2Proof.Machine
end

