-- ==== Sys2Proof/Laws/Memory.lean ====
section
/-! SUPPORT. The laws of the memory operations: what a byte reads as after a write, that every operation
keeps the canonical form, that equal contents are equal data, and what an element reads as after
it is stored. -/

namespace Sys2Proof.Machine

open Sys2Proof

@[simp] theorem Memory.find_nil (a : Nat) : Memory.find [] a = none := rfl

theorem Memory.find_cons (k : Nat) (v : Byte) (m : Memory) (a : Nat) :
    Memory.find ((k, v) :: m) a = if a = k then some v else Memory.find m a := rfl

/-- A write sets its own byte and no other. -/
theorem Memory.find_set (m : Memory) (a x : Nat) (b : Byte) :
    Memory.find (m.set a b) x = if x = a then some b else Memory.find m x := by
  induction m with
  | nil => simp [Memory.set, Memory.find_cons]
  | cons p m ih =>
    obtain ⟨k, v⟩ := p
    unfold Memory.set
    split
    · simp [Memory.find_cons]
    · split
      · subst_vars
        by_cases h : x = k <;> simp [Memory.find_cons, h]
      · by_cases h : x = k
        · subst h
          simp [Memory.find_cons, Ne.symm ‹¬a = x›]
        · simp [Memory.find_cons, h, ih]

@[simp] theorem Memory.find_set_self (m : Memory) (a : Nat) (b : Byte) :
    Memory.find (m.set a b) a = some b := by simp [Memory.find_set]

theorem Memory.find_set_of_ne (m : Memory) {a x : Nat} (b : Byte) (h : x ≠ a) :
    Memory.find (m.set a b) x = Memory.find m x := by simp [Memory.find_set, h]

/-- The offsets a write lists are the old ones and its own. -/
theorem Memory.mem_set {m : Memory} {a : Nat} {b : Byte} {p : Host.Cell} (h : p ∈ m.set a b) :
    p = (a, b) ∨ p ∈ m := by
  induction m with
  | nil => simpa [Memory.set] using h
  | cons q m ih =>
    obtain ⟨k, v⟩ := q
    unfold Memory.set at h
    split at h
    · simpa using h
    · split at h
      · rcases List.mem_cons.1 h with h | h
        · exact .inl h
        · exact .inr (List.mem_cons_of_mem _ h)
      · rcases List.mem_cons.1 h with h | h
        · exact .inr (by simp [h])
        · rcases ih h with h | h
          · exact .inl h
          · exact .inr (List.mem_cons_of_mem _ h)

/-- A write keeps the canonical form. -/
theorem Memory.wf_set {m : Memory} (h : Memory.wf m) (a : Nat) (b : Byte) :
    Memory.wf (m.set a b) := by
  induction m with
  | nil => simp [Memory.set, Memory.wf]
  | cons q m ih =>
    obtain ⟨k, v⟩ := q
    have hk := List.pairwise_cons.1 h
    unfold Memory.set
    split
    · rename_i hlt
      refine List.pairwise_cons.2 ⟨fun p hp => ?_, h⟩
      rcases List.mem_cons.1 hp with hp | hp
      · simpa [hp] using hlt
      · exact hlt.trans (hk.1 p hp)
    · split
      · subst_vars
        exact List.pairwise_cons.2 ⟨hk.1, hk.2⟩
      · refine List.pairwise_cons.2 ⟨fun p hp => ?_, ih hk.2⟩
        rcases Memory.mem_set hp with hp | hp
        · subst hp
          simp only
          omega
        · exact hk.1 p hp

theorem Memory.wf_store16 {m : Memory} (h : Memory.wf m) (a : Nat) (v : Half) :
    Memory.wf (m.store16 a v) := wf_set (wf_set h _ _) _ _

theorem Memory.wf_store32 {m : Memory} (h : Memory.wf m) (a : Nat) (v : Word) :
    Memory.wf (m.store32 a v) := wf_store16 (wf_store16 h _ _) _ _

theorem Memory.wf_storeHalves (vs : List Half) :
    ∀ {m : Memory}, Memory.wf m → ∀ a, Memory.wf (m.storeHalves a vs) := by
  induction vs with
  | nil => exact fun h _ => h
  | cons v vs ih => exact fun h a => ih (wf_store16 h a v) (a + 2)

theorem Memory.wf_storeWords (vs : List Word) :
    ∀ {m : Memory}, Memory.wf m → ∀ a, Memory.wf (m.storeWords a vs) := by
  induction vs with
  | nil => exact fun h _ => h
  | cons v vs ih => exact fun h a => ih (wf_store32 h a v) (a + 4)

/-- Reading below every listed offset finds nothing. -/
theorem Memory.find_eq_none_of_lt {m : Memory} {a : Nat} (h : ∀ p ∈ m, a < p.1) :
    Memory.find m a = none := by
  induction m with
  | nil => rfl
  | cons p m ih =>
    have hp := h p (by simp)
    rw [show p = (p.1, p.2) from rfl, Memory.find_cons, if_neg (by omega)]
    exact ih fun q hq => h q (by simp [hq])

/-- Canonical memories with equal contents are equal data. -/
theorem Memory.ext_find : ∀ {m n : Memory}, Memory.wf m → Memory.wf n →
    (∀ a, Memory.find m a = Memory.find n a) → m = n
  | [], [], _, _, _ => rfl
  | [], (k, v) :: n, _, _, h => by simpa [Memory.find_cons] using h k
  | (k, v) :: m, [], _, _, h => by simpa [Memory.find_cons] using h k
  | (k, v) :: m, (l, w) :: n, hm, hn, h => by
    have hm' := List.pairwise_cons.1 hm
    have hn' := List.pairwise_cons.1 hn
    have hkl : k = l := by
      rcases Nat.lt_trichotomy k l with hlt | heq | hlt
      · have := h k
        rw [Memory.find_cons, if_pos rfl, Memory.find_cons, if_neg (by omega),
          find_eq_none_of_lt fun p hp => hlt.trans (hn'.1 p hp)] at this
        cases this
      · exact heq
      · have := h l
        rw [Memory.find_cons, if_neg (by omega), Memory.find_cons, if_pos rfl,
          find_eq_none_of_lt fun p hp => hlt.trans (hm'.1 p hp)] at this
        cases this
    subst hkl
    have hvw : v = w := by simpa [Memory.find_cons] using h k
    subst hvw
    refine congrArg _ (Memory.ext_find hm'.2 hn'.2 fun a => ?_)
    by_cases ha : a = k
    · subst ha
      rw [find_eq_none_of_lt hm'.1, find_eq_none_of_lt hn'.1]
    · simpa [Memory.find_cons, ha] using h a

/-- A stored 16-bit element: its two bytes are written, every other byte is as before. -/
theorem Memory.find_store16 (m : Memory) (a x : Nat) (v : Half) :
    Memory.find (m.store16 a v) x =
      if x = a + 1 then some (v.extractLsb' 8 8)
      else if x = a then some (v.extractLsb' 0 8) else Memory.find m x := by
  simp [Memory.store16, Memory.find_set]

theorem Memory.find_store16_of_not_mem (m : Memory) (a x : Nat) (v : Half)
    (h : x < a ∨ a + 2 ≤ x) : Memory.find (m.store16 a v) x = Memory.find m x := by
  rw [Memory.find_store16, if_neg (by omega), if_neg (by omega)]

theorem Memory.find_store32_of_not_mem (m : Memory) (a x : Nat) (v : Word)
    (h : x < a ∨ a + 4 ≤ x) : Memory.find (m.store32 a v) x = Memory.find m x := by
  rw [Memory.store32, Memory.find_store16_of_not_mem _ _ _ _ (by omega),
    Memory.find_store16_of_not_mem _ _ _ _ (by omega)]

/-- Storing 16-bit elements leaves every byte outside them as it was. -/
theorem Memory.find_storeHalves_of_not_mem (vs : List Half) : ∀ (m : Memory) (a x : Nat),
    x < a ∨ a + 2 * vs.length ≤ x → Memory.find (m.storeHalves a vs) x = Memory.find m x := by
  induction vs with
  | nil => exact fun _ _ _ _ => rfl
  | cons v vs ih =>
    intro m a x h
    simp only [List.length_cons] at h
    rw [Memory.storeHalves, ih _ _ _ (by omega), Memory.find_store16_of_not_mem _ _ _ _ (by omega)]

/-- Storing 32-bit elements leaves every byte outside them as it was. -/
theorem Memory.find_storeWords_of_not_mem (vs : List Word) : ∀ (m : Memory) (a x : Nat),
    x < a ∨ a + 4 * vs.length ≤ x → Memory.find (m.storeWords a vs) x = Memory.find m x := by
  induction vs with
  | nil => exact fun _ _ _ _ => rfl
  | cons v vs ih =>
    intro m a x h
    simp only [List.length_cons] at h
    rw [Memory.storeWords, ih _ _ _ (by omega), Memory.find_store32_of_not_mem _ _ _ _ (by omega)]

theorem State.loadByte_of_find {s : State} {a : Nat} {b : Byte}
    (h : Memory.find s.mem a = some b) : s.loadByte a = b := by simp [State.loadByte, h]

/-- A 16-bit element whose bytes are written is the value of its bytes (R65). -/
theorem State.load16_of_find {s : State} {a : Nat} {b0 b1 : Byte}
    (h0 : Memory.find s.mem a = some b0) (h1 : Memory.find s.mem (a + 1) = some b1) :
    s.load16 a = b1 ++ b0 := by
  rw [State.load16, State.loadByte_of_find h0, State.loadByte_of_find h1]

/-- A 32-bit element whose bytes are written is the value of its bytes (R65). -/
theorem State.load32_of_find {s : State} {a : Nat} {b0 b1 b2 b3 : Byte}
    (h0 : Memory.find s.mem a = some b0) (h1 : Memory.find s.mem (a + 1) = some b1)
    (h2 : Memory.find s.mem (a + 2) = some b2) (h3 : Memory.find s.mem (a + 3) = some b3) :
    s.load32 a = (b3 ++ b2) ++ (b1 ++ b0) := by
  rw [State.load32, State.load16_of_find h0 h1, State.load16_of_find h2 h3]

/-- Two operations that see the same byte listed, or both at the same `hpc` unlisted, read the same. -/
theorem State.loadByte_congr {s t : State} {a : Nat} (h : Memory.find s.mem a = Memory.find t.mem a)
    (hp : s.hpc = t.hpc) : s.loadByte a = t.loadByte a := by simp [State.loadByte, h, hp]

theorem State.load16_congr {s t : State} {a : Nat}
    (h : ∀ x, a ≤ x → x < a + 2 → Memory.find s.mem x = Memory.find t.mem x)
    (hp : s.hpc = t.hpc) : s.load16 a = t.load16 a := by
  simp only [State.load16]
  rw [loadByte_congr (h (a + 1) (by omega) (by omega)) hp, loadByte_congr (h a (by omega) (by omega)) hp]

theorem State.load32_congr {s t : State} {a : Nat}
    (h : ∀ x, a ≤ x → x < a + 4 → Memory.find s.mem x = Memory.find t.mem x)
    (hp : s.hpc = t.hpc) : s.load32 a = t.load32 a := by
  simp only [State.load32]
  rw [load16_congr (fun x h1 h2 => h x (by omega) (by omega)) hp,
    load16_congr (fun x h1 h2 => h x (by omega) (by omega)) hp]

theorem half_of_bytes (v : Half) : v.extractLsb' 8 8 ++ v.extractLsb' 0 8 = v := by
  apply BitVec.eq_of_getLsbD_eq
  intro i hi
  simp only [BitVec.getLsbD_append, BitVec.getLsbD_extractLsb']
  by_cases h : i < 8
  · simp [h]
  · simp [h, show i - 8 < 8 by omega, show 8 + (i - 8) = i by omega]

theorem word_of_halves (v : Word) : v.extractLsb' 16 16 ++ v.extractLsb' 0 16 = v := by
  apply BitVec.eq_of_getLsbD_eq
  intro i hi
  simp only [BitVec.getLsbD_append, BitVec.getLsbD_extractLsb']
  by_cases h : i < 16
  · simp [h]
  · simp [h, show i - 16 < 16 by omega, show 16 + (i - 16) = i by omega]

/-- A 16-bit element reads as what was stored to it. -/
theorem State.load16_store16 (s : State) (m : Memory) (a : Nat) (v : Half)
    (h : s.mem = m.store16 a v) : s.load16 a = v := by
  have h1 : s.loadByte (a + 1) = v.extractLsb' 8 8 :=
    loadByte_of_find (by rw [h, Memory.find_store16, if_pos rfl])
  have h0 : s.loadByte a = v.extractLsb' 0 8 :=
    loadByte_of_find (by rw [h, Memory.find_store16, if_neg (by omega), if_pos rfl])
  rw [State.load16, h1, h0, half_of_bytes]

/-- Element `i` of a stored run of 16-bit elements reads as the `i`-th value. -/
theorem State.load16_storeHalves (vs : List Half) : ∀ (s : State) (m : Memory) (a i : Nat),
    s.mem = m.storeHalves a vs → (h : i < vs.length) → s.load16 (a + 2 * i) = vs[i] := by
  induction vs with
  | nil => intro _ _ _ _ _ h; cases h
  | cons v vs ih =>
    intro s m a i hs h
    rw [Memory.storeHalves] at hs
    cases i with
    | zero =>
      let s' : State := { s with mem := m.store16 a v }
      have : s.load16 a = s'.load16 a :=
        load16_congr (fun x h1 h2 => by
          rw [hs, Memory.find_storeHalves_of_not_mem _ _ _ _ (by omega)]) rfl
      simpa [this] using load16_store16 s' m a v rfl
    | succ i =>
      have := ih s _ (a + 2) i hs (by simpa using h)
      simpa [show a + 2 * (i + 1) = a + 2 + 2 * i by ring] using this

/-- A 32-bit element reads as what was stored to it. -/
theorem State.load32_store32 (s : State) (m : Memory) (a : Nat) (v : Word)
    (h : s.mem = m.store32 a v) : s.load32 a = v := by
  rw [Memory.store32] at h
  have h2 := load16_store16 s _ _ _ h
  let s' : State := { s with mem := m.store16 a (v.extractLsb' 0 16) }
  have h1 : s.load16 a = s'.load16 a :=
    load16_congr (fun x h1 h2 => by rw [h, Memory.find_store16_of_not_mem _ _ _ _ (by omega)]) rfl
  rw [State.load32, h2, h1, load16_store16 s' m a _ rfl, word_of_halves]

/-- Element `i` of a stored run of 32-bit elements reads as the `i`-th value. -/
theorem State.load32_storeWords (vs : List Word) : ∀ (s : State) (m : Memory) (a i : Nat),
    s.mem = m.storeWords a vs → (h : i < vs.length) → s.load32 (a + 4 * i) = vs[i] := by
  induction vs with
  | nil => intro _ _ _ _ _ h; cases h
  | cons v vs ih =>
    intro s m a i hs h
    rw [Memory.storeWords] at hs
    cases i with
    | zero =>
      let s' : State := { s with mem := m.store32 a v }
      have : s.load32 a = s'.load32 a :=
        load32_congr (fun x h1 h2 => by
          rw [hs, Memory.find_storeWords_of_not_mem _ _ _ _ (by omega)]) rfl
      simpa [this] using load32_store32 s' m a v rfl
    | succ i =>
      have := ih s _ (a + 4) i hs (by simpa using h)
      simpa [show a + 4 * (i + 1) = a + 4 + 4 * i by ring] using this

end Sys2Proof.Machine
end

