-- ==== Sys2Proof/Laws/Ops.lean ====
section
/-! SUPPORT. What each shared operation can do, said once: contexts, the phases of a command, the
helpers, the port. -/

namespace Sys2Proof.Machine

open Sys2Proof

/-- Replacing context `c` changes context `c` and no other. -/
theorem State.ctx_setCtx (s : State) {c : Nat} (hc : c < 32) (x : ApContext) (d : Nat) :
    (s.setCtx c x).ctx d = if d = c then x else s.ctx d := by
  simp only [State.ctx, State.setCtx, Vector.getElem?_setIfInBounds]
  by_cases h : d = c
  · subst h
    simp [hc]
  · simp [h, Ne.symm h]

/-- A context is read from the contexts and nothing else. -/
theorem State.ctx_congr {s t : State} (h : s.ctxs = t.ctxs) (c : Nat) : s.ctx c = t.ctx c := by
  simp [State.ctx, h]

/-- Completing a command changes no memory element, no context and no sample. -/
@[simp] theorem State.rmem_succeed (s : State) (k : Nat) : s.succeed.rmem k = s.rmem k := rfl

@[simp] theorem State.ymem_succeed (s : State) (m : Nat) : s.succeed.ymem m = s.ymem m := rfl

@[simp] theorem State.xmem_succeed (s : State) (i : Nat) : s.succeed.xmem i = s.xmem i := rfl

@[simp] theorem State.ctx_succeed (s : State) (c : Nat) : s.succeed.ctx c = s.ctx c := rfl

/-- Neither does recording an error (R216). -/
@[simp] theorem State.rmem_raise (s : State) (code : ErrorCode) (w : Word) (k : Nat) :
    (s.raise code w).rmem k = s.rmem k := rfl

@[simp] theorem State.ymem_raise (s : State) (code : ErrorCode) (w : Word) (m : Nat) :
    (s.raise code w).ymem m = s.ymem m := rfl

@[simp] theorem State.ctx_raise (s : State) (code : ErrorCode) (w : Word) (c : Nat) :
    (s.raise code w).ctx c = s.ctx c := rfl

/-- The context a decimation leaves (R176 to R178). -/
theorem State.ctx_storeDecimated (s : State) (n : Nat) {c : Nat} (hc : c < 32) (d : Nat) :
    (s.storeDecimated n c).ctx d =
      if d = c then (decimate s.cfg (s.ctx c) n (s.frame n)).2 else s.ctx d := by
  rw [← State.ctx_setCtx s hc]
  exact State.ctx_congr rfl d

/-- A command answers a next state: the error of the first violated check, or the completed effect
(R107, R216). -/
theorem State.command_cases {s t : State} {w : Word} {violated : Option ErrorCode}
    {effect : State → State} (h : s.command w violated effect = .next t) :
    (∃ code, violated = some code ∧ t = s.raise code w) ∨
      (violated = none ∧ t = (effect s).succeed) := by
  cases violated with
  | none => exact .inr ⟨rfl, by simpa [State.command] using h.symm⟩
  | some code => exact .inl ⟨code, rfl, by simpa [State.command] using h.symm⟩

@[simp] theorem State.command_none (s : State) (w : Word) (effect : State → State) :
    s.command w none effect = .next (effect s).succeed := rfl

@[simp] theorem State.command_some (s : State) (w : Word) (code : ErrorCode)
    (effect : State → State) : s.command w (some code) effect = .next (s.raise code w) := rfl

/-- What the helpers share (R135). -/
theorem State.helper_eq (s : State) (i : Instr) (v : Int) :
    s.helper i v = .next (s.setRes v).succeed := rfl

/-- A read answers the content of a readable location or refuses, and touches nothing else (R62). -/
theorem State.portRead_cases (s : State) (off n : Nat) :
    (∃ l r, locate s.cfg off n = some l ∧ s.content l = some r ∧ s.portRead off n = s.respond r) ∨
      ((∀ l, locate s.cfg off n = some l → s.content l = none) ∧
        s.portRead off n = s.respond (.busError off)) := by
  unfold State.portRead
  cases hl : locate s.cfg off n with
  | none => exact .inr ⟨by simp, rfl⟩
  | some l =>
    cases hc : s.content l with
    | none => exact .inr ⟨by simp [hc], by simp [hc]⟩
    | some r => exact .inl ⟨l, r, rfl, hc, by simp [hc]⟩

/-- A write runs a command, writes `OPA`, `OPB` or one sample, or is refused (R63, R64). -/
theorem State.portWrite_cases (s : State) (off n : Nat) (v : Word) :
    (locate s.cfg off n = some (.reg .cmd) ∧ s.portWrite off n v = s.writeCmd v) ∨
    (locate s.cfg off n = some (.reg .opa) ∧ s.portWrite off n v = .next { s with opa := v }) ∨
    (locate s.cfg off n = some (.reg .opb) ∧ s.portWrite off n v = .next { s with opb := v }) ∨
    (∃ i, locate s.cfg off n = some (.xmem i) ∧ s.portWrite off n v =
      .next { s with mem := Memory.store16 s.mem (xmemAddr i) (v.extractLsb' 0 16) }) ∨
    s.portWrite off n v = .next (s.respond (.busError off)) := by
  unfold State.portWrite
  split
  · exact .inl ⟨‹_›, rfl⟩
  · exact .inr (.inl ⟨‹_›, rfl⟩)
  · exact .inr (.inr (.inl ⟨‹_›, rfl⟩))
  · exact .inr (.inr (.inr (.inl ⟨_, ‹_›, rfl⟩)))
  · exact .inr (.inr (.inr (.inr rfl)))

/-- A write to `CMD` runs the decoded command or raises `E_ILLEGAL` (R25, R96). -/
theorem State.writeCmd_cases (s : State) (w : Word) :
    (∃ i, decodeWord w = .command i ∧ s.writeCmd w = exec i s) ∨
      (∃ why, decodeWord w = .illegal why ∧ s.writeCmd w = .next (s.raise .illegal w)) := by
  unfold State.writeCmd
  cases decodeWord w with
  | command i => exact .inl ⟨i, rfl, rfl⟩
  | illegal why => exact .inr ⟨why, rfl, rfl⟩

/-- The location an aligned element access moves (R61, R70). -/
theorem elementAt?_eq_some {start size count off : Nat} {location : Nat → Location} {l : Location}
    (hs : 0 < size) :
    elementAt? start size count off location = some l ↔
      ∃ i, i < count ∧ off = start + size * i ∧ l = location i := by
  simp only [elementAt?]
  constructor
  · intro h
    split at h
    · rename_i hc
      obtain ⟨h1, h2, h3⟩ := hc
      refine ⟨_, h3, ?_, by simpa using h.symm⟩
      have := Nat.div_add_mod (off - start) size
      omega
    · cases h
  · rintro ⟨i, hi, rfl, rfl⟩
    simp [hi, Nat.mul_div_cancel_left i hs]

/-- The `APS` cell an access of the read window moves (R43). -/
theorem apsAt?_eq_some {cfg : Config} {off : Nat} {l : Location} (ho : 0x400 ≤ off) :
    apsAt? cfg off = some l ↔ ∃ c i, c < cfg.nctx ∧ i ≤ 4 ∧ off = apsAddr c i ∧ l = .aps c i := by
  simp only [apsAt?]
  constructor
  · intro h
    split at h
    · rename_i hc
      obtain ⟨h1, h2, h3⟩ := hc
      exact ⟨_, _, h2, h3, by simp only [apsAddr]; omega, by simpa using h.symm⟩
    · cases h
  · rintro ⟨c, i, hc, hi, rfl, rfl⟩
    have h1 : (apsAddr c i - 0x400) / 0x20 = c := by simp only [apsAddr]; omega
    have h2 : (apsAddr c i - 0x400) % 0x20 / 4 = i := by simp only [apsAddr]; omega
    have h3 : apsAddr c i % 4 = 0 := by simp only [apsAddr]; omega
    rw [h1, h2, if_pos ⟨h3, hc, hi⟩]

theorem Reg.mem_all (r : Reg) : r ∈ Reg.all := by cases r <;> decide

theorem Reg.offset_inj {r r' : Reg} (h : r.offset = r'.offset) : r = r' := by
  revert h
  cases r <;> cases r' <;> decide

/-- The register at an offset is the one the map puts there (R37). -/
theorem Reg.at?_eq_some {off : Nat} {r : Reg} : Reg.at? off = some r ↔ r.offset = off := by
  constructor
  · intro h
    simpa using List.find?_some h
  · intro h
    obtain ⟨r', hr'⟩ : ∃ r', Reg.at? off = some r' := by
      rw [← Option.isSome_iff_exists, Reg.at?, List.find?_isSome]
      exact ⟨r, r.mem_all, by simpa using h⟩
    have : r'.offset = off := by simpa using List.find?_some hr'
    rw [hr', Reg.offset_inj (this.trans h.symm)]

end Sys2Proof.Machine
end

