-- ==== Sys2Proof/Laws/Fixed.lean ====
section
/-! SUPPORT. The laws of the fixed-point primitives: ranges, and that a value in range survives being
stored as a pattern. -/

namespace Sys2Proof.Machine

open Sys2Proof

theorem asr_16 (v : Int) : asr v 16 = v / 65536 := rfl

/-- `sat32` gives an `int32` (R121). -/
theorem sat32_range (v : Int) : -2147483648 ≤ sat32 v ∧ sat32 v ≤ 2147483647 := by
  unfold sat32
  split
  · constructor <;> norm_num
  · split <;> constructor <;> norm_num <;> omega

/-- `sat32` is the identity on `int32` (R121). -/
theorem sat32_of_range {v : Int} (h : -2147483648 ≤ v) (h' : v ≤ 2147483647) : sat32 v = v := by
  unfold sat32
  rw [if_neg (by norm_num; omega), if_neg (by norm_num; omega)]

/-- `sat16` gives an `int16` (R122). -/
theorem sat16_range (v : Int) : -32768 ≤ sat16 v ∧ sat16 v ≤ 32767 := by
  unfold sat16
  split
  · omega
  · split <;> omega

/-- A value in `int32` is what its pattern holds (R66). -/
theorem toInt_pattern32 {v : Int} (h : -2147483648 ≤ v) (h' : v ≤ 2147483647) :
    (pattern32 v).toInt = v := by
  rw [pattern32, BitVec.toInt_ofInt, Int.bmod_eq_of_le] <;> omega

/-- A value in `int16` is what its pattern holds (R66). -/
theorem toInt_pattern16 {v : Int} (h : -32768 ≤ v) (h' : v ≤ 32767) :
    (pattern16 v).toInt = v := by
  rw [pattern16, BitVec.toInt_ofInt, Int.bmod_eq_of_le] <;> omega

/-- A cell is what its value's pattern is (R66). -/
theorem pattern32_toInt (w : Word) : pattern32 w.toInt = w := BitVec.ofInt_toInt

theorem signed16_range (r : Word) : -32768 ≤ signed16 r ∧ signed16 r ≤ 32767 := by
  have h := BitVec.toInt_lt (x := r.extractLsb' 0 16)
  have h' := BitVec.le_toInt (x := r.extractLsb' 0 16)
  constructor
  · simpa [signed16] using h'
  · have : signed16 r < 32768 := by simpa [signed16] using h
    omega

theorem signed32_range (r : Word) : -2147483648 ≤ signed32 r ∧ signed32 r ≤ 2147483647 := by
  have h := BitVec.toInt_lt (x := r)
  have h' := BitVec.le_toInt (x := r)
  constructor
  · simpa [signed32] using h'
  · have : signed32 r < 2147483648 := by simpa [signed32] using h
    omega

theorem sample_range (s : State) (i : Nat) : -32768 ≤ s.sample i ∧ s.sample i ≤ 32767 := by
  have h := BitVec.toInt_lt (x := s.xmem i)
  have h' := BitVec.le_toInt (x := s.xmem i)
  constructor
  · simpa [State.sample] using h'
  · have : s.sample i < 32768 := by simpa [State.sample] using h
    omega

/-- The upper half of an `int32` is an `int16` (R174). -/
theorem asr16_range {v : Int} (h : -2147483648 ≤ v) (h' : v ≤ 2147483647) :
    -32768 ≤ asr v 16 ∧ asr v 16 ≤ 32767 := by
  rw [asr_16]
  omega

/-- `trunc16` is the identity on `int16` (R125, R174). -/
theorem trunc16_of_range {v : Int} (h : -32768 ≤ v) (h' : v ≤ 32767) : trunc16 v = v := by
  rw [trunc16, BitVec.toInt_ofInt, Int.bmod_eq_of_le] <;> omega

/-- A section gives an `int16` and leaves an `int32` in its accumulator (R174). -/
theorem apSection_range (s a acc : Int) :
    (-32768 ≤ (apSection s a acc).1 ∧ (apSection s a acc).1 ≤ 32767) ∧
    (-2147483648 ≤ (apSection s a acc).2 ∧ (apSection s a acc).2 ≤ 2147483647) := by
  have hb := sat32_range (mulrs16 s a * 2 + acc)
  have hh := asr16_range hb.1 hb.2
  refine ⟨?_, sat32_range _⟩
  simp only [apSection, satAdd32]
  rw [trunc16_of_range hh.1 hh.2]
  exact hh

theorem apSections_range (a0 a1 s acc0 acc1 : Int) :
    (-32768 ≤ (apSections a0 a1 s acc0 acc1).1 ∧ (apSections a0 a1 s acc0 acc1).1 ≤ 32767) ∧
    (-2147483648 ≤ (apSections a0 a1 s acc0 acc1).2.1 ∧
      (apSections a0 a1 s acc0 acc1).2.1 ≤ 2147483647) ∧
    (-2147483648 ≤ (apSections a0 a1 s acc0 acc1).2.2 ∧
      (apSections a0 a1 s acc0 acc1).2.2 ≤ 2147483647) :=
  ⟨(apSection_range _ _ _).1, (apSection_range _ _ _).2, (apSection_range _ _ _).2⟩

end Sys2Proof.Machine
end

