-- ==== Sys2Proof/Laws/Filter.lean ====
section
/-! SUPPORT. What the in-place filter of the decimator does, said once in terms of its sequence of inputs
(rules R173, R181), and what a successful decimation leaves in memory (rules R179, R180). -/

namespace Sys2Proof.Machine

open Sys2Proof

/-- The inputs of a filter: the buffer elements at `i`, `i + 2`, ... (R173). -/
def strided (wbuf : List Int) (i count : Nat) : List Int :=
  (List.range count).map fun t => wbuf.getD (i + 2 * t) 0

theorem strided_succ (wbuf : List Int) (i count : Nat) :
    strided wbuf i (count + 1) = wbuf.getD i 0 :: strided wbuf (i + 2) count := by
  simp only [strided, List.range_succ_eq_map, List.map_cons, List.map_map]
  congr 1
  apply List.map_congr_left
  intro t _
  simp [show i + 2 * (t + 1) = i + 2 + 2 * t by ring]

theorem getD_set_of_ne (l : List Int) {i j : Nat} (h : i ≠ j) (v : Int) :
    (l.set i v).getD j 0 = l.getD j 0 := by
  simp [List.getD_eq_getElem?_getD, h]

theorem getD_set_self (l : List Int) {i : Nat} (h : i < l.length) (v : Int) :
    (l.set i v).getD i 0 = v := by
  simp [List.getD_eq_getElem?_getD, h]

theorem strided_set_of_lt (wbuf : List Int) (v : Int) {i j : Nat} (h : i < j) (count : Nat) :
    strided (wbuf.set i v) j count = strided wbuf j count := by
  simp only [strided]
  apply List.map_congr_left
  intro t _
  exact getD_set_of_ne _ (by omega) _

@[simp] theorem branch_length (a0 a1 acc0 acc1 : Int) (xs : List Int) :
    (branch a0 a1 acc0 acc1 xs).1.length = xs.length := by
  induction xs generalizing acc0 acc1 with
  | nil => rfl
  | cons v vs ih => simp [branch, ih]

/-- `apfilter` leaves the accumulators of the branch of its inputs (R173). -/
theorem apFilter_acc (a0 a1 : Int) (count : Nat) : ∀ (i : Nat) (acc0 acc1 : Int) (wbuf : List Int),
    (apFilter a0 a1 count i acc0 acc1 wbuf).1 =
        (branch a0 a1 acc0 acc1 (strided wbuf i count)).2.1 ∧
      (apFilter a0 a1 count i acc0 acc1 wbuf).2.1 =
        (branch a0 a1 acc0 acc1 (strided wbuf i count)).2.2 := by
  induction count with
  | zero => intro i acc0 acc1 wbuf; exact ⟨rfl, rfl⟩
  | succ count ih =>
    intro i acc0 acc1 wbuf
    rw [apFilter, strided_succ, branch]
    have := ih (i + 2) (apSections a0 a1 (wbuf.getD i 0) acc0 acc1).2.1
      (apSections a0 a1 (wbuf.getD i 0) acc0 acc1).2.2
      (wbuf.set i (apSections a0 a1 (wbuf.getD i 0) acc0 acc1).1)
    rwa [strided_set_of_lt _ _ (show i < i + 2 by omega)] at this

@[simp] theorem apFilter_length (a0 a1 : Int) (count : Nat) :
    ∀ (i : Nat) (acc0 acc1 : Int) (wbuf : List Int),
      (apFilter a0 a1 count i acc0 acc1 wbuf).2.2.length = wbuf.length := by
  induction count with
  | zero => intro i acc0 acc1 wbuf; rfl
  | succ count ih => intro i acc0 acc1 wbuf; rw [apFilter, ih, List.length_set]

/-- `apfilter` touches only its own positions (R182). -/
theorem apFilter_getD_of_ne (a0 a1 : Int) (count : Nat) :
    ∀ (i : Nat) (acc0 acc1 : Int) (wbuf : List Int) (j : Nat),
      (∀ t, t < count → j ≠ i + 2 * t) →
      (apFilter a0 a1 count i acc0 acc1 wbuf).2.2.getD j 0 = wbuf.getD j 0 := by
  induction count with
  | zero => intro i acc0 acc1 wbuf j _; rfl
  | succ count ih =>
    intro i acc0 acc1 wbuf j hj
    rw [apFilter, ih _ _ _ _ _ fun t ht => by
      have := hj (t + 1) (by omega)
      omega]
    exact getD_set_of_ne _ (by have := hj 0 (by omega); omega) _

/-- Its own positions hold the outputs of the branch (R173). -/
theorem apFilter_getD (a0 a1 : Int) (count : Nat) :
    ∀ (i : Nat) (acc0 acc1 : Int) (wbuf : List Int) (t : Nat), t < count →
      i + 2 * t < wbuf.length →
      (apFilter a0 a1 count i acc0 acc1 wbuf).2.2.getD (i + 2 * t) 0 =
        (branch a0 a1 acc0 acc1 (strided wbuf i count)).1.getD t 0 := by
  induction count with
  | zero => intro i acc0 acc1 wbuf t ht; omega
  | succ count ih =>
    intro i acc0 acc1 wbuf t ht hl
    rw [apFilter, strided_succ, branch]
    cases t with
    | zero =>
      rw [apFilter_getD_of_ne _ _ _ _ _ _ _ _ fun t _ => by omega]
      simpa using getD_set_self _ (by omega) _
    | succ t =>
      have := ih (i + 2) (apSections a0 a1 (wbuf.getD i 0) acc0 acc1).2.1
        (apSections a0 a1 (wbuf.getD i 0) acc0 acc1).2.2
        (wbuf.set i (apSections a0 a1 (wbuf.getD i 0) acc0 acc1).1) t (by omega)
        (by rw [List.length_set]; omega)
      rw [show i + 2 + 2 * t = i + 2 * (t + 1) by ring,
        strided_set_of_lt _ _ (show i < i + 2 by omega)] at this
      simpa using this

theorem branch_cons (a0 a1 acc0 acc1 v : Int) (vs : List Int) :
    (branch a0 a1 acc0 acc1 (v :: vs)).2 =
      (branch a0 a1 (apSections a0 a1 v acc0 acc1).2.1 (apSections a0 a1 v acc0 acc1).2.2 vs).2 := by
  rw [branch]

/-- After at least one sample the accumulators are `int32` (R174). -/
theorem branch_acc_range (a0 a1 : Int) (xs : List Int) : ∀ acc0 acc1 : Int, xs ≠ [] →
    (-2147483648 ≤ (branch a0 a1 acc0 acc1 xs).2.1 ∧
      (branch a0 a1 acc0 acc1 xs).2.1 ≤ 2147483647) ∧
    (-2147483648 ≤ (branch a0 a1 acc0 acc1 xs).2.2 ∧
      (branch a0 a1 acc0 acc1 xs).2.2 ≤ 2147483647) := by
  induction xs with
  | nil => intro _ _ h; exact absurd rfl h
  | cons v vs ih =>
    intro acc0 acc1 _
    rw [branch_cons]
    cases vs with
    | nil =>
      simp only [branch]
      exact (apSections_range a0 a1 v acc0 acc1).2
    | cons w ws => exact ih _ _ (List.cons_ne_nil _ _)

/-- Output `m` of a frame of the buffer (R179). -/
theorem recombine_getElem (half : Nat) (wbuf : List Int) {m : Nat}
    (h : m < (recombine half wbuf).length) :
    (recombine half wbuf)[m] = satAdd16 (wbuf.getD (2 * m) 0) (wbuf.getD (2 * m + 1) 0) := by
  simp [recombine]

theorem State.frame_getD (s : State) {n i : Nat} (h : i < n) : (s.frame n).getD i 0 = s.sample i := by
  simp [State.frame, List.getD_eq_getElem?_getD, h]

@[simp] theorem State.frame_length (s : State) (n : Nat) : (s.frame n).length = n := by
  simp [State.frame]

/-- What the upper branch filters (R177, R181). -/
theorem strided_upper (s : State) (carry : Word) (n : Nat) :
    strided (workingBuffer carry (s.frame n)) 1 (n / 2) = upperInputs s.sample n := by
  simp only [strided, upperInputs]
  apply List.map_congr_left
  intro t ht
  have := List.mem_range.1 ht
  rw [workingBuffer, show 1 + 2 * t = 2 * t + 1 by ring, List.getD_cons_succ,
    State.frame_getD _ (by omega)]

/-- What the lower branch filters, whatever the upper branch has done to its own positions
(R178, R181, R182). -/
theorem strided_lower (s : State) (carry : Word) (n : Nat) (wbuf : List Int)
    (h : ∀ t, t < n / 2 →
      wbuf.getD (2 * t) 0 = (workingBuffer carry (s.frame n)).getD (2 * t) 0) :
    strided wbuf 0 (n / 2) = lowerInputs (carry.toInt / 65536) s.sample n := by
  simp only [strided, lowerInputs]
  apply List.map_congr_left
  intro t ht
  have := List.mem_range.1 ht
  rw [Nat.zero_add, h t this, workingBuffer]
  cases t with
  | zero => simp [asr]
  | succ t =>
    rw [if_neg (by omega), show 2 * (t + 1) = 2 * t + 1 + 1 by ring, List.getD_cons_succ,
      State.frame_getD _ (by omega)]
    rfl

/-- Sample `m` of the output reads as the pattern stored for it (R179). -/
theorem State.ymem_storeHalves (s : State) (m : Memory) (vs : List Int) {i : Nat}
    (hs : s.mem = Memory.storeHalves m (ymemAddr 0) (vs.map pattern16)) (h : i < vs.length) :
    s.ymem i = pattern16 vs[i] := by
  have := State.load16_storeHalves (vs.map pattern16) s m (ymemAddr 0) i hs (by simpa using h)
  simpa [State.ymem, ymemAddr] using this

end Sys2Proof.Machine
end

