-- ==== Sys2Proof/Laws/PerInstr.lean ====
section
/-! SUPPORT. The family `OpcodeRow`, about commands as syntax: the number a well-formed command is
encoded from fits a 32-bit word, and its top four bits are the opcode of the command's row of the
opcode map (rules R90, R98). One lemma per constructor. -/

namespace Sys2Proof.Laws

open Sys2Proof

/-- The word of a well-formed command loses no bit and carries the row's opcode. -/
def OpcodeRow.Statement (i : Instr) : Prop :=
  i.wellFormed = true →
    (encode i).toNat = i.opc * 2 ^ 28 + i.operandBits ∧ field (encode i) 31 28 = i.opc

theorem opcodeRow_of_lt {i : Instr} (ho : i.opc < 16) (hb : i.operandBits < 2 ^ 28) :
    (encode i).toNat = i.opc * 2 ^ 28 + i.operandBits ∧ field (encode i) 31 28 = i.opc := by
  have h : (encode i).toNat = i.opc * 2 ^ 28 + i.operandBits := by
    rw [encode, BitVec.toNat_ofNat]
    omega
  refine ⟨h, ?_⟩
  rw [field, h]
  omega

theorem OpcodeRow.acorr (n order : Nat) : OpcodeRow.Statement (.acorr n order) := by
  intro h
  simp only [Instr.wellFormed, Bool.and_eq_true, decide_eq_true_eq] at h
  exact opcodeRow_of_lt (by simp [Instr.opc]) (by simp only [Instr.operandBits]; omega)

theorem OpcodeRow.decim (n ctx : Nat) : OpcodeRow.Statement (.decim n ctx) := by
  intro h
  simp only [Instr.wellFormed, Bool.and_eq_true, decide_eq_true_eq] at h
  exact opcodeRow_of_lt (by simp [Instr.opc]) (by simp only [Instr.operandBits]; omega)

theorem OpcodeRow.apinit (ctx : Nat) : OpcodeRow.Statement (.apinit ctx) := by
  intro h
  simp only [Instr.wellFormed, decide_eq_true_eq] at h
  exact opcodeRow_of_lt (by simp [Instr.opc]) (by simp only [Instr.operandBits]; omega)

theorem OpcodeRow.acorrv (n order : Nat) : OpcodeRow.Statement (.acorrv n order) := by
  intro h
  simp only [Instr.wellFormed, Bool.and_eq_true, decide_eq_true_eq] at h
  exact opcodeRow_of_lt (by simp [Instr.opc]) (by simp only [Instr.operandBits]; omega)

theorem OpcodeRow.sadd32 : OpcodeRow.Statement .sadd32 := fun _ =>
  opcodeRow_of_lt (by simp [Instr.opc]) (by simp [Instr.operandBits])

theorem OpcodeRow.sadd16 : OpcodeRow.Statement .sadd16 := fun _ =>
  opcodeRow_of_lt (by simp [Instr.opc]) (by simp [Instr.operandBits])

theorem OpcodeRow.trunc16 : OpcodeRow.Statement .trunc16 := fun _ =>
  opcodeRow_of_lt (by simp [Instr.opc]) (by simp [Instr.operandBits])

theorem OpcodeRow.mulrs16 : OpcodeRow.Statement .mulrs16 := fun _ =>
  opcodeRow_of_lt (by simp [Instr.opc]) (by simp [Instr.operandBits])

theorem OpcodeRow.clz32 : OpcodeRow.Statement .clz32 := fun _ =>
  opcodeRow_of_lt (by simp [Instr.opc]) (by simp [Instr.operandBits])

end Sys2Proof.Laws
end

