-- ==== Sys2Proof/Laws/Step.lean ====
section
/-! SUPPORT. What a command, an access and a step can do, each said once: the inversion lemmas from
which the statements about every step follow. -/

namespace Sys2Proof.Machine

open Sys2Proof

/-- A recorded failure is seen in `STATUS` (R26, R216). -/
theorem State.raise_status_ne (s : State) (code : ErrorCode) (w : Word) :
    (s.raise code w).status ≠ 0 := by
  cases code <;> simp [statusWord, ErrorCode.number]

/-- `ACORR` and `ACORRV` violate nothing exactly on legal operands (R141). -/
theorem acorrViolated_eq_none {cfg : Config} {n order : Nat} :
    acorrViolated cfg n order = none ↔ AcorrLegal cfg n order := by
  unfold acorrViolated
  split
  · simp only [reduceCtorEq, false_iff]
    omega
  · split
    · simp only [reduceCtorEq, false_iff]
      omega
    · simp only [true_iff]
      omega

/-- `DECIM` violates nothing exactly on legal operands (R171). -/
theorem decimViolated_eq_none {s : State} {n c : Nat} :
    decimViolated s n c = none ↔ DecimLegal s n c := by
  unfold decimViolated
  constructor
  · intro h
    split at h
    · cases h
    · split at h
      · cases h
      · split at h
        · exact ⟨by omega, by omega, by omega, by omega, ‹_›⟩
        · cases h
  · rintro ⟨h1, h2, h3, h4, hv⟩
    rw [if_neg (by omega), if_neg (by omega), if_pos hv]

/-- `APINIT` violates nothing exactly on an existing context (R200). -/
theorem apinitViolated_eq_none {cfg : Config} {c : Nat} :
    apinitViolated cfg c = none ↔ c < cfg.nctx := by
  unfold apinitViolated
  split
  · simp only [reduceCtorEq, false_iff]
    omega
  · simp only [true_iff]
    omega

/-- What a command can do: raise its first violated check, or complete with its own effect. The checks
see the parameters, and `DECIM` the valid bit of its context, only. -/
theorem exec_cases {i : Instr} {s t : State} (h : exec i s = .next t) :
    (∃ code, t = s.raise code (encode i) ∧
      ∀ s' : State, s'.cfg = s.cfg →
        (∀ n c, i = .decim n c → (s'.ctx c).valid = (s.ctx c).valid) →
        exec i s' = .next (s'.raise code (encode i))) ∨
    (∃ n order, i = .acorr n order ∧ AcorrLegal s.cfg n order ∧
      t = (s.storeCoefficients (lagSum s.sample n) order).succeed) ∨
    (∃ n order, i = .acorrv n order ∧ s.cfg.lanes ≠ 1 ∧ AcorrLegal s.cfg n order ∧
      t = (s.storeCoefficients (groupedLagSum s.cfg.lanes s.sample n) order).succeed) ∨
    (∃ n c, i = .decim n c ∧ DecimLegal s n c ∧ t = (s.storeDecimated n c).succeed) ∨
    (∃ c, i = .apinit c ∧ c < s.cfg.nctx ∧ t = (s.setCtx c ApContext.zeroed).succeed) ∨
    (8 ≤ i.opc ∧ ∃ v, t = (s.setRes v).succeed) := by
  cases i with
  | acorr n order =>
    simp only [exec, execAcorr] at h
    rcases State.command_cases h with ⟨code, hv, rfl⟩ | ⟨hv, rfl⟩
    · refine .inl ⟨code, rfl, fun s' hc _ => ?_⟩
      simp only [exec, execAcorr, hc, hv, State.command_some]
    · exact .inr (.inl ⟨n, order, rfl, acorrViolated_eq_none.1 hv, rfl⟩)
  | decim n c =>
    simp only [exec, execDecim] at h
    rcases State.command_cases h with ⟨code, hv, rfl⟩ | ⟨hv, rfl⟩
    · refine .inl ⟨code, rfl, fun s' hc hctx => ?_⟩
      have hv' : decimViolated s' n c = some code := by
        rw [← hv, decimViolated, decimViolated, hc, hctx n c rfl]
      simp only [exec, execDecim, hv', State.command_some]
    · exact .inr (.inr (.inr (.inl ⟨n, c, rfl, decimViolated_eq_none.1 hv, rfl⟩)))
  | apinit c =>
    simp only [exec, execApinit] at h
    rcases State.command_cases h with ⟨code, hv, rfl⟩ | ⟨hv, rfl⟩
    · refine .inl ⟨code, rfl, fun s' hc _ => ?_⟩
      simp only [exec, execApinit, hc, hv, State.command_some]
    · exact .inr (.inr (.inr (.inr (.inl ⟨c, rfl, apinitViolated_eq_none.1 hv, rfl⟩))))
  | acorrv n order =>
    simp only [exec, execAcorrv] at h
    rcases State.command_cases h with ⟨code, hv, rfl⟩ | ⟨hv, rfl⟩
    · refine .inl ⟨code, rfl, fun s' hc _ => ?_⟩
      simp only [exec, execAcorrv, hc, hv, State.command_some]
    · unfold acorrvViolated at hv
      split at hv
      · cases hv
      · exact .inr (.inr (.inl ⟨n, order, rfl, ‹_›, acorrViolated_eq_none.1 hv, rfl⟩))
  | sadd32 => cases h; exact .inr (.inr (.inr (.inr (.inr ⟨by decide, _, rfl⟩))))
  | sadd16 => cases h; exact .inr (.inr (.inr (.inr (.inr ⟨by decide, _, rfl⟩))))
  | trunc16 => cases h; exact .inr (.inr (.inr (.inr (.inr ⟨by decide, _, rfl⟩))))
  | mulrs16 => cases h; exact .inr (.inr (.inr (.inr (.inr ⟨by decide, _, rfl⟩))))
  | clz32 => cases h; exact .inr (.inr (.inr (.inr (.inr ⟨by decide, _, rfl⟩))))

/-- What no command changes: the host's side, the parameters, the operand registers; and a successful one
leaves the error record (R22, R217). -/
theorem exec_keeps {i : Instr} {s t : State} (h : exec i s = .next t) :
    t.pending = s.pending ∧ t.hpc = s.hpc ∧ t.resp = s.resp ∧ t.cfg = s.cfg ∧
      t.opa = s.opa ∧ t.opb = s.opb ∧
      (t.status = 0 → t.esticky = s.esticky ∧ t.ecmd = s.ecmd) := by
  rcases exec_cases h with ⟨code, rfl, -⟩ | ⟨_, _, _, _, rfl⟩ | ⟨_, _, _, _, _, rfl⟩ |
    ⟨_, _, _, _, rfl⟩ | ⟨_, _, _, rfl⟩ | ⟨_, _, rfl⟩
  · exact ⟨rfl, rfl, rfl, rfl, rfl, rfl, fun h => absurd h (State.raise_status_ne _ _ _)⟩
  all_goals exact ⟨rfl, rfl, rfl, rfl, rfl, rfl, fun _ => ⟨rfl, rfl⟩⟩

/-- A command succeeds, or all it did was to raise an error. -/
theorem exec_status {i : Instr} {s t : State} (h : exec i s = .next t) :
    t.status = 0 ∨ ∃ code, t = s.raise code (encode i) := by
  rcases exec_cases h with ⟨code, rfl, -⟩ | ⟨_, _, _, _, rfl⟩ | ⟨_, _, _, _, _, rfl⟩ |
    ⟨_, _, _, _, rfl⟩ | ⟨_, _, _, rfl⟩ | ⟨_, _, rfl⟩
  · exact .inr ⟨code, rfl⟩
  all_goals exact .inl rfl

/-- What a legal access can reach: its size and its offset name one location (R61, R70). -/
theorem locate_cases {cfg : Config} {off n : Nat} {l : Location} (h : locate cfg off n = some l) :
    (n = 4 ∧ ∃ r : Reg, l = .reg r ∧ off = r.offset) ∨
    (n = 4 ∧ ∃ c i, l = .aps c i ∧ c < cfg.nctx ∧ i ≤ 4 ∧ off = apsAddr c i) ∨
    (n = 4 ∧ ∃ k, l = .rmem k ∧ k ≤ cfg.ordmax ∧ off = rmemAddr k) ∨
    (n = 2 ∧ ∃ i, l = .xmem i ∧ i < cfg.nmax ∧ off = xmemAddr i) ∨
    (n = 2 ∧ ∃ i, l = .ymem i ∧ i < cfg.nmax / 2 ∧ off = ymemAddr i) := by
  unfold locate at h
  split at h
  · split at h
    · simp only [Option.map_eq_some_iff] at h
      obtain ⟨r, hr, rfl⟩ := h
      exact .inl ⟨‹_›, r, rfl, (Reg.at?_eq_some.1 hr).symm⟩
    · split at h
      · obtain ⟨c, i, h1, h2, h3, h4⟩ := (apsAt?_eq_some (by omega)).1 h
        exact .inr (.inl ⟨‹_›, c, i, h4, h1, h2, h3⟩)
      · obtain ⟨k, h1, h2, h3⟩ := (elementAt?_eq_some (by norm_num)).1 h
        exact .inr (.inr (.inl
          ⟨‹_›, k, h3, by omega, by simp only [rmemAddr] at *; omega⟩))
  · split at h
    · split at h
      · obtain ⟨i, h1, h2, h3⟩ := (elementAt?_eq_some (by norm_num)).1 h
        exact .inr (.inr (.inr (.inl
          ⟨‹_›, i, h3, h1, by simp only [xmemAddr] at *; omega⟩)))
      · obtain ⟨i, h1, h2, h3⟩ := (elementAt?_eq_some (by norm_num)).1 h
        exact .inr (.inr (.inr (.inr
          ⟨‹_›, i, h3, h1, by simp only [ymemAddr] at *; omega⟩)))
    · cases h

/-- The port locates only what a read can answer, and `CMD` (R61, R62). -/
theorem locate_readable {cfg : Config} {off n : Nat} {l : Location} (h : locate cfg off n = some l) :
    Readable cfg off n ∨ l = .reg .cmd := by
  rcases locate_cases h with ⟨rfl, r, rfl, rfl⟩ | ⟨rfl, c, i, rfl, hc, hi, rfl⟩ |
    ⟨rfl, k, rfl, hk, rfl⟩ | ⟨rfl, i, rfl, hi, rfl⟩ | ⟨rfl, i, rfl, hi, rfl⟩
  · cases r
    case cmd => exact .inr rfl
    all_goals exact .inl (.inl ⟨rfl, .inl (by decide)⟩)
  · exact .inl (.inl ⟨rfl, .inr (.inl ⟨c, i, hc, hi, rfl⟩)⟩)
  · exact .inl (.inl ⟨rfl, .inr (.inr ⟨k, hk, rfl⟩)⟩)
  · exact .inl (.inr ⟨rfl, .inl ⟨i, hi, rfl⟩⟩)
  · exact .inl (.inr ⟨rfl, .inr ⟨i, hi, rfl⟩⟩)

/-- A register is reached by a four-byte access at its offset (R37, R61). -/
theorem locate_reg (cfg : Config) (r : Reg) : locate cfg r.offset 4 = some (.reg r) := by
  have h : r.offset < 0x400 := by cases r <;> decide
  rw [locate, if_pos rfl, if_pos h, Reg.at?_eq_some.2 rfl]
  rfl

/-- A cell of a context is reached by a four-byte access of its window (R43, R61). -/
theorem locate_aps {cfg : Config} (hl : cfg.Legal) {c i : Nat} (hc : c < cfg.nctx) (hi : i ≤ 4) :
    locate cfg (apsAddr c i) 4 = some (.aps c i) := by
  have := hl.2.2.1.2
  rw [locate, if_pos rfl, if_neg (by simp only [apsAddr]; omega),
    if_pos (by simp only [apsAddr]; omega)]
  exact (apsAt?_eq_some (by simp only [apsAddr]; omega)).2 ⟨c, i, hc, hi, rfl, rfl⟩

/-- A coefficient is reached by a four-byte access (R47, R61, R70). -/
theorem locate_rmem {cfg : Config} {k : Nat} (hk : k ≤ cfg.ordmax) :
    locate cfg (rmemAddr k) 4 = some (.rmem k) := by
  rw [locate, if_pos rfl, if_neg (by simp only [rmemAddr]; omega),
    if_neg (by simp only [rmemAddr]; omega)]
  exact (elementAt?_eq_some (by norm_num)).2 ⟨k, by omega, rfl, rfl⟩

/-- A sample is reached by a two-byte access (R45, R61, R70). -/
theorem locate_xmem {cfg : Config} (hl : cfg.Legal) {i : Nat} (hi : i < cfg.nmax) :
    locate cfg (xmemAddr i) 2 = some (.xmem i) := by
  have := hl.1.2.2
  rw [locate, if_neg (by norm_num), if_pos rfl, if_pos (by simp only [xmemAddr]; omega)]
  exact (elementAt?_eq_some (by norm_num)).2 ⟨i, hi, rfl, rfl⟩

/-- An output sample is reached by a two-byte access (R46, R61, R70). -/
theorem locate_ymem {cfg : Config} {i : Nat} (hi : i < cfg.nmax / 2) :
    locate cfg (ymemAddr i) 2 = some (.ymem i) := by
  rw [locate, if_neg (by norm_num), if_pos rfl, if_neg (by simp only [ymemAddr]; omega)]
  exact (elementAt?_eq_some (by norm_num)).2 ⟨i, hi, rfl, rfl⟩

/-- What the host receives for a location is never an error response (R62). -/
theorem State.content_ne_busError (s : State) (l : Location) (off : Nat) :
    s.content l ≠ some (.busError off) := by
  cases l <;> simp [State.content]

/-- A step with an operation to come performs it (R60, R75). -/
theorem step_of_pending {s : State} {op : HostOp} {rest : List HostOp} (h : s.pending = op :: rest) :
    step s = (s.accept rest).perform op := by
  unfold step
  simp only [h]

/-- What a step can do: nothing, when no operation is to come; else answer a read, reset the block, run
a command, write `OPA`, `OPB` or one sample, or refuse a write that is none of these. -/
theorem step_cases {s t : State} (h : step s = .next t) :
    (s.pending = [] ∧ t = s) ∨
    ∃ op rest, s.pending = op :: rest ∧
      ((∃ off n r, op = .read off n ∧ t = (s.accept rest).respond r) ∨
      (op = .reset ∧ t = (s.accept rest).resetBlock) ∨
      (∃ w, op = .write Reg.cmd.offset 4 w ∧ (s.accept rest).writeCmd w = .next t) ∨
      (∃ v, op = .write Reg.opa.offset 4 v ∧ t = { s.accept rest with opa := v }) ∨
      (∃ v, op = .write Reg.opb.offset 4 v ∧ t = { s.accept rest with opb := v }) ∨
      (∃ v i, i < s.cfg.nmax ∧ op = .write (xmemAddr i) 2 v ∧
        t = { s.accept rest with
          mem := Memory.store16 s.mem (xmemAddr i) (v.extractLsb' 0 16) }) ∨
      (∃ off n v, op = .write off n v ∧ (n = 4 → off ≠ Reg.cmd.offset) ∧
        t = (s.accept rest).respond (.busError off))) := by
  cases hp : s.pending with
  | nil =>
    unfold step at h
    simp only [hp] at h
    cases h
    exact .inl ⟨rfl, rfl⟩
  | cons op rest =>
    rw [step_of_pending hp] at h
    refine .inr ⟨op, rest, rfl, ?_⟩
    cases op with
    | reset => cases h; exact .inr (.inl ⟨rfl, rfl⟩)
    | read off n =>
      simp only [State.perform] at h
      rcases State.portRead_cases (s.accept rest) off n with ⟨l, r, _, _, e⟩ | ⟨_, e⟩ <;>
        (rw [e] at h; cases h; exact .inl ⟨off, n, _, rfl, rfl⟩)
    | write off n v =>
      simp only [State.perform] at h
      refine .inr (.inr ?_)
      by_cases hcmd : n = 4 ∧ off = Reg.cmd.offset
      · obtain ⟨rfl, rfl⟩ := hcmd
        refine .inl ⟨v, rfl, ?_⟩
        rw [← h, State.portWrite, locate_reg]
      rcases State.portWrite_cases (s.accept rest) off n v with
        ⟨hloc, e⟩ | ⟨hloc, e⟩ | ⟨hloc, e⟩ | ⟨i, hloc, e⟩ | e <;> rw [e] at h
      · rcases locate_cases hloc with ⟨rfl, r, hr, rfl⟩ | ⟨_, _, _, hr, _⟩ | ⟨_, _, hr, _⟩ |
          ⟨_, _, hr, _⟩ | ⟨_, _, hr, _⟩ <;> cases hr
        exact absurd ⟨rfl, rfl⟩ hcmd
      · rcases locate_cases hloc with ⟨rfl, r, hr, rfl⟩ | ⟨_, _, _, hr, _⟩ | ⟨_, _, hr, _⟩ |
          ⟨_, _, hr, _⟩ | ⟨_, _, hr, _⟩ <;> cases hr
        cases h
        exact .inr (.inl ⟨v, rfl, rfl⟩)
      · rcases locate_cases hloc with ⟨rfl, r, hr, rfl⟩ | ⟨_, _, _, hr, _⟩ | ⟨_, _, hr, _⟩ |
          ⟨_, _, hr, _⟩ | ⟨_, _, hr, _⟩ <;> cases hr
        cases h
        exact .inr (.inr (.inl ⟨v, rfl, rfl⟩))
      · rcases locate_cases hloc with ⟨_, _, hr, _⟩ | ⟨_, _, _, hr, _⟩ | ⟨_, _, hr, _⟩ |
          ⟨rfl, _, hr, hi, rfl⟩ | ⟨_, _, hr, _⟩ <;> cases hr
        cases h
        exact .inr (.inr (.inr (.inl ⟨v, i, hi, rfl, rfl⟩)))
      · cases h
        exact .inr (.inr (.inr (.inr ⟨off, n, v, rfl, fun hn ho => hcmd ⟨hn, ho⟩, rfl⟩)))

end Sys2Proof.Machine
end

