-- ==== Sys2Proof/Laws/Sums.lean ====
section
/-! SUPPORT. The accumulator of the autocorrelation unit is the mathematical sum, and what a successful
autocorrelation leaves in memory (rules R142 to R145). -/

namespace Sys2Proof.Machine

open Sys2Proof

/-- An accumulator holds its start value and the sum of what was added (R142, R151). -/
theorem accumulate_eq_sum (total : Int) (f : Nat → Int) (n : Nat) :
    accumulate total f n = total + ∑ j ∈ Finset.range n, f j := by
  induction n with
  | zero => simp [accumulate]
  | succ n ih => rw [accumulate, ih, Finset.sum_range_succ, add_assoc]

/-- `prod_k` as a mathematical sum (R143). -/
theorem lagSum_eq_sum (x : Nat → Int) (n k : Nat) :
    lagSum x n k = ∑ j ∈ Finset.range (n - k), x j * x (j + k) := by
  rw [lagSum, accumulate_eq_sum, zero_add]
  rfl

/-- The accumulator sees its terms only below its count. -/
theorem accumulate_congr {total : Int} {f g : Nat → Int} {n : Nat} (h : ∀ j, j < n → f j = g j) :
    accumulate total f n = accumulate total g n := by
  induction n with
  | zero => rfl
  | succ n ih =>
    rw [accumulate, accumulate, ih fun j hj => h j (by omega), h n (by omega)]

/-- Coefficient `k` reads as the pattern of the shifted lag sum (R144, R145). -/
theorem State.rmem_storeCoefficients (s : State) (prod : Nat → Int) (order : Nat) {k : Nat}
    (hk : k ≤ order) :
    (s.storeCoefficients prod order).rmem k = pattern32 (asr (prod k) (scaleOf (prod 0))) := by
  have h := State.load32_storeWords
    ((List.range (order + 1)).map fun k => pattern32 (asr (prod k) (scaleOf (prod 0))))
    (s.storeCoefficients prod order) s.mem (rmemAddr 0) k rfl (by simp; omega)
  simpa [State.rmem, rmemAddr] using h

/-- Outside `RMEM[0 .. order]` every byte is as before (R149). -/
theorem State.find_storeCoefficients (s : State) (prod : Nat → Int) (order : Nat) {a : Nat}
    (ha : a < rmemAddr 0 ∨ rmemAddr (order + 1) ≤ a) :
    Memory.find (s.storeCoefficients prod order).mem a = Memory.find s.mem a := by
  rw [State.storeCoefficients_mem]
  apply Memory.find_storeWords_of_not_mem
  simp only [List.length_map, List.length_range, rmemAddr] at *
  omega

end Sys2Proof.Machine
end

