-- ==== Sys2Proof/Tests/Slice0.lean ====
section
/-! SUPPORT. Tests of single steps against the worked examples and vectors of 95_test_vectors.md (each
test names its vector), the refusal of ill-formed terms, and for every statement with hypotheses a
concrete state that meets them. -/

namespace Sys2Proof.Machine

open Sys2Proof

set_option maxRecDepth 20000

/-- The next state of an outcome; only used where the outcome is one. -/
def nextOf : Host.Outcome State Fault Refusal → State
  | .next s => s
  | .fault _ => State.reset
  | .refused _ => State.reset

/-- The block after reset with a frame in `XMEM`. -/
def framed (xs : List Int) : State :=
  { State.reset with mem := Memory.storeHalves [] (xmemAddr 0) (xs.map pattern16) }

/-- The same with context 0 initialised. -/
def streaming (xs : List Int) : State := (framed xs).setCtx 0 ApContext.zeroed

/-- The block after reset with operands in `OPA` and `OPB`. -/
def operands (a b : Word) : State := { State.reset with opa := a, opb := b }

/-- The block after reset with one host operation to come. -/
def given (op : HostOp) : State := { State.reset with pending := [op] }

/-- The block after reset with parameters `cfg`, a frame, and context 0 initialised. -/
def configured (cfg : Config) (xs : List Int) : State := { streaming xs with cfg := cfg }

/-- The first `count` coefficients. -/
def coefficients (count : Nat) (s : State) : List Int :=
  (List.range count).map fun k => (s.rmem k).toInt

/-- The first `count` output samples. -/
def outputs (count : Nat) (s : State) : List Int :=
  (List.range count).map fun m => (s.ymem m).toInt

/-- Frame `A` of V-D4. -/
def frameA : List Int := [1000, -2000, 3000, -4000, 5000, -6000, 7000, -8000]

/-- Frame `B` of V-D4. -/
def frameB : List Int := [32767, 32767, -32768, -32768, 12345, -12345, 1, -1]

/-- The four section coefficients 0 ("zero coefficients"). -/
def zeroCoefficients : Config :=
  { Config.default with apUpper0 := 0, apUpper1 := 0, apLower0 := 0, apLower1 := 0 }

/-! ### Ill-formed terms (R97) -/

theorem test_acorr_n_must_fit : (Instr.acorr 65536 0).wellFormed = false := by decide
theorem test_acorr_order_must_fit : (Instr.acorr 8 4096).wellFormed = false := by decide
theorem test_acorrv_n_must_fit : (Instr.acorrv 65536 0).wellFormed = false := by decide
theorem test_acorrv_order_must_fit : (Instr.acorrv 8 4096).wellFormed = false := by decide
theorem test_decim_n_must_fit : (Instr.decim 65536 0).wellFormed = false := by decide
theorem test_decim_ctx_must_fit : (Instr.decim 8 256).wellFormed = false := by decide
theorem test_apinit_ctx_must_fit : (Instr.apinit 256).wellFormed = false := by decide

/-! ### Decoding, words written out from the formats (V-E1) -/

theorem test_decode_acorr : decodeWord 0x1FFF0100 = .command (.acorr 256 4095) := by decide
theorem test_decode_acorrv : decodeWord 0x40020008 = .command (.acorrv 8 2) := by decide
theorem test_decode_decim : decodeWord 0x20FF0008 = .command (.decim 8 255) := by decide
theorem test_decode_apinit : decodeWord 0x30010000 = .command (.apinit 1) := by decide
theorem test_decode_sadd32 : decodeWord 0x80000000 = .command .sadd32 := by decide
theorem test_decode_sadd16 : decodeWord 0x90000000 = .command .sadd16 := by decide
theorem test_decode_trunc16 : decodeWord 0xA0000000 = .command .trunc16 := by decide
theorem test_decode_mulrs16 : decodeWord 0xB0000000 = .command .mulrs16 := by decide
theorem test_decode_clz32 : decodeWord 0xC0000000 = .command .clz32 := by decide

theorem test_decode_must_be_zero :
    decodeWord 0x21000008 = .illegal (.nonZero .zero4) ∧
    decodeWord 0x31000000 = .illegal (.nonZero .zero4) ∧
    decodeWord 0x30000001 = .illegal (.nonZero .zero16) ∧
    decodeWord 0xC0000001 = .illegal (.nonZero .zero28) := by decide

theorem test_decode_reserved :
    decodeWord 0x00000000 = .illegal (.reservedOpcode 0x0) ∧
    decodeWord 0x50000000 = .illegal (.reservedOpcode 0x5) ∧
    decodeWord 0x60000000 = .illegal (.reservedOpcode 0x6) ∧
    decodeWord 0x70000000 = .illegal (.reservedOpcode 0x7) ∧
    decodeWord 0xD0000000 = .illegal (.reservedOpcode 0xD) ∧
    decodeWord 0xE0000000 = .illegal (.reservedOpcode 0xE) ∧
    decodeWord 0xF0000001 = .illegal (.reservedOpcode 0xF) := by decide

theorem test_decode_table_word :
    decodeTableWord 32 0x101F0100 = some (.acorr 256 31) ∧ decodeTableWord 32 0x50000000 = none := by
  decide

/-! ### The commands -/

/-- V-A6: negative coefficients, floor of a shifted sum. -/
theorem test_acorr_shifted :
    let t := nextOf (exec (.acorr 8 3)
      (framed [-32768, 32767, -32768, 32767, -32768, 32767, -32768, 32767]))
    coefficients 4 t = [2147418113, -1878990848, 1610563584, -1342136320] ∧
      t.scale = 2 ∧ t.outlen = 4 ∧ t.status = 0 := by decide

/-- V-E2: the length is checked before the order (V-E3, `ACORR 6, 9`). -/
theorem test_acorr_length_first :
    (nextOf (exec (.acorr 6 9) State.reset)).status = 3 ∧
      (nextOf (exec (.acorr 8 8) State.reset)).status = 4 := by decide

/-- V-A8: group-wise sums with a tail, in groups of four and of eight. -/
theorem test_acorrv_tails :
    let xs : List Int := [100, -200, 300, -400, 500, -600, 700, -800, 900, -1000, 1100, -1200]
    ∀ lanes ∈ [4, 8],
      coefficients 6
        (nextOf (exec (.acorrv 12 5) (configured { Config.default with lanes := lanes } xs))) =
          [6500000, -5720000, 4950000, -4200000, 3480000, -2800000] := by decide

/-- V-E2: without a vector path `ACORRV 10, 2` is illegal before its length is looked at. -/
theorem test_acorrv_without_lanes :
    (nextOf (exec (.acorrv 10 2) (configured { Config.default with lanes := 1 } []))).status = 1 := by
  decide

/-- V-D4, frame `A`. -/
theorem test_decim_first_frame :
    let t := nextOf (exec (.decim 8 0) (streaming frameA))
    outputs 4 t = [0, -1, 998, 998] ∧ t.outlen = 4 ∧
      t.ctx 0 = ⟨true, 0x1B57FF52, 0x1387FB84, 0xE8900268, 0xF05F05D0, 0xE0C00000⟩ := by decide

/-- V-D5, frame `B` first: clamped accumulators and outputs. -/
theorem test_decim_saturates :
    let t := nextOf (exec (.decim 8 0) (streaming frameB))
    outputs 4 t = [0, 0, 32765, -3] ∧
      t.ctx 0 = ⟨true, 0x0000FE52, 0x303930F8, 0xCFC713C2, 0x80000000, 0xFFFF0000⟩ := by decide

/-- V-S1. -/
theorem test_apinit :
    let t := nextOf (exec (.apinit 0) State.reset)
    t.status = 0 ∧ t.ctx 0 = ApContext.zeroed ∧ t.readReg .apvalid = some 1 := by decide

/-- V-S3: a context that does not exist. -/
theorem test_apinit_no_context :
    let t := nextOf (exec (.apinit 2) State.reset)
    t.status = 2 ∧ t.esticky = 4 ∧ t.ecmd = 0x30020000 := by decide

/-- V-H1. -/
theorem test_sadd32 :
    (nextOf (exec .sadd32 (operands 0x40000000 0x40000000))).res = 0x7FFFFFFF ∧
      (nextOf (exec .sadd32 (operands 0xC0000000 0xC0000000))).res = 0x80000000 := by decide

/-- V-H2, the upper halves are ignored. -/
theorem test_sadd16 :
    (nextOf (exec .sadd16 (operands 0xABCD7FFF 0x12340001))).res = 0x00007FFF ∧
      (nextOf (exec .sadd16 (operands 0xFFFF8000 0x0001FFFF))).res = 0xFFFF8000 := by decide

/-- V-H3. -/
theorem test_trunc16 :
    (nextOf (exec .trunc16 (operands 0x12348765 0))).res = 0xFFFF8765 ∧
      (nextOf (exec .trunc16 (operands 0xFFFF7FFF 0))).res = 0x00007FFF := by decide

/-- V-H4. -/
theorem test_mulrs16 :
    (nextOf (exec .mulrs16 (operands 0x0000FC18 0x00000471))).res = 0xFFFFFFEE ∧
      (nextOf (exec .mulrs16 (operands 0x00008000 0x00008000))).res = 0x00004000 := by decide

/-- V-H5. -/
theorem test_clz32 :
    (nextOf (exec .clz32 (operands 0 0))).res = 32 ∧
      (nextOf (exec .clz32 (operands 0x00010000 0x00000471))).res = 15 := by decide

/-- V-D0: rows 3, 5 and 10 of the section traces. -/
theorem test_section :
    apSection 3000 1137 0x03E80000 = (1000, 196607964) ∧
      apSection (-32768) 24379 (2 ^ 31 - 1) = (32767, -2 ^ 31) ∧
      apSection (-32768) (-32767) (-2 ^ 31) = (-32768, -2 ^ 31) := by decide

/-! ### The port and the step -/

/-- V-M1: the constant registers and a sample. -/
theorem test_port_reads :
    (nextOf (step (given (.read 0x024 4)))).resp = .data32 0x401F0100 ∧
      (nextOf (step (given (.read 0x028 4)))).resp = .data32 0x00000102 ∧
      (nextOf (step (given (.read 0x03C 4)))).resp = .data32 0x00005F3B ∧
      (nextOf (step { framed [-1] with pending := [.read 0x10000 2] })).resp = .data16 0xFFFF := by
  decide

/-- V-M2: refused reads. -/
theorem test_port_refused_reads :
    ∀ a ∈ [(0x000, 4), (0x10000, 4), (0x10001, 2), (0x414, 4), (0x440, 4), (0x040, 4), (0x10200, 2),
      (0x30080, 4), (0x20100, 2)],
      (nextOf (step (given (.read a.1 a.2)))).resp = .busError a.1 := by decide

/-- V-M2: refused writes. -/
theorem test_port_refused_writes :
    ∀ a ∈ [(0x004, 4), (0x020, 4), (0x018, 2), (0x20000, 2), (0x30000, 4), (0x400, 4)],
      (nextOf (step (given (.write a.1 a.2 0)))).resp = .busError a.1 := by decide

/-- A word becomes a command by being the next the host writes to `CMD`; V-A3 is the first command. -/
theorem test_step_runs_the_word :
    (nextOf (step ((framed [0, 0, 0, 0, 0, 0, 0, 0]).withFetchWord 32 0x10030008))).outlen = 4 ∧
      (nextOf (step (State.reset.withFetchWord 32 0x50000000))).ecmd = 0x50000000 := by decide

/-- P2: the frame command of a stream that was not initialised fails and is recorded. -/
theorem test_step_records_a_failure :
    let t := nextOf (step ((framed frameA).withFetchWord 32 0x20000008))
    t.status = 5 ∧ t.esticky = 0x20 ∧ t.ecmd = 0x20000008 ∧ t.outlen = 0 := by decide

/-- R105: a line of a host script. -/
theorem test_script_line :
    (ScriptLine.ldx 0 [1, -2000]).ops = [.write 0x10000 2 1, .write 0x10002 2 0xFFFFF830] := by decide

/-! ### The hypotheses of the statements are met -/

theorem witness_DecodeEncodeAgree :
    ∀ i ∈ [Instr.acorr 65535 4095, .acorrv 65535 4095, .decim 65535 255, .apinit 255, .sadd32, .sadd16,
      .trunc16, .mulrs16, .clz32], i.wellFormed = true := by decide

theorem witness_EncodeDecodeAgree : decodeWord 0x4FFFFFFF = .command (.acorrv 65535 4095) := by decide

theorem witness_OpcodeMapSelectsTheCommand :
    decodeWord 0x30FF0000 = .command (.apinit 255) ∧
      (0x30FF0000 : Word) &&& (Instr.apinit 0).maskBits = (Instr.apinit 0).matchBits := by decide

theorem witness_ReservedOpcodesRaiseIllegal :
    field 0x0FFFFFFF 31 28 ∈ [0x0, 0x5, 0x6, 0x7, 0xD, 0xE, 0xF] ∧
      field 0x70000000 31 28 ∈ [0x0, 0x5, 0x6, 0x7, 0xD, 0xE, 0xF] ∧
      field 0xF0000001 31 28 ∈ [0x0, 0x5, 0x6, 0x7, 0xD, 0xE, 0xF] := by decide

theorem witness_MustBeZeroFieldsAreChecked :
    (field 0x28000000 31 28 ∈ [0x2, 0x3] ∧ field 0x28000000 27 24 ≠ 0) ∧
    (field 0x30008000 31 28 = 0x3 ∧ field 0x30008000 15 0 ≠ 0) ∧
    (field 0xC8000000 31 28 ∈ [0x8, 0x9, 0xA, 0xB, 0xC] ∧ field 0xC8000000 27 0 ≠ 0) := by decide

theorem witness_StepRunsTheDecodedCommand :
    (State.reset.withFetchWord 32 0x30000000).pending = [.write 0x000 4 0x30000000] ∧
      decodeWord 0x30000000 = .command (.apinit 0) ∧
      (State.reset.withFetchWord 32 0x30000001).pending = [.write 0x000 4 0x30000001] ∧
      decodeWord 0x30000001 = .illegal (.nonZero .zero16) := by decide

theorem witness_IdleBlockHoldsItsState : State.reset.pending = [] := rfl

theorem witness_StepMovesTheScriptByOne :
    (given .reset).pending = [.reset] ∧ step (given .reset) = .next (nextOf (step (given .reset))) ∧
      exec .sadd32 State.reset = .next (nextOf (exec .sadd32 State.reset)) := ⟨rfl, rfl, rfl⟩

theorem witness_ScaleIsTheExcessBitLength :
    (0 : Int) ≤ 2 ^ 63 - 1 ∧ (2 ^ 63 - 1 : Int) < 2 ^ 63 ∧ 0 < scaleOf (2 ^ 63 - 1) ∧
      scaleOf (2 ^ 31 - 1) = 0 := by decide

theorem witness_Sadd32Result : field 0x80000001 31 28 = 0x8 ∧ field 0x80000001 27 0 ≠ 0 := by decide

theorem witness_Sadd16Result : field 0x98000000 31 28 = 0x9 ∧ field 0x98000000 27 0 ≠ 0 := by decide

theorem witness_Trunc16Result : field 0xA0000001 31 28 = 0xA ∧ field 0xA0000001 27 0 ≠ 0 := by decide

theorem witness_Mulrs16Result : field 0xB0000001 31 28 = 0xB ∧ field 0xB0000001 27 0 ≠ 0 := by decide

theorem witness_Clz32Result :
    (operands 0 0).opa = 0 ∧ (operands 1 0).opa ≠ 0 ∧ (operands 0x80000000 0).opa ≠ 0 ∧
      field 0xC8000000 31 28 = 0xC ∧ field 0xC8000000 27 0 ≠ 0 := by decide

theorem witness_AcorrResult :
    State.reset.cfg.Legal ∧ AcorrLegal State.reset.cfg 8 7 ∧ AcorrLegal State.reset.cfg 256 31 := by
  decide

theorem witness_AcorrvEqualsAcorr :
    (State.reset.cfg.lanes = 4 ∧ AcorrLegal State.reset.cfg 12 11) ∧
      (configured { Config.default with lanes := 8 } []).cfg.lanes = 8 ∧
      AcorrLegal (configured { Config.default with lanes := 8 } []).cfg 12 11 := by decide

theorem witness_AutocorrelationPreconditions :
    (¬ (10 % 4 = 0 ∧ 8 ≤ 10 ∧ 10 ≤ State.reset.cfg.nmax)) ∧
    (¬ (4 % 4 = 0 ∧ 8 ≤ 4 ∧ 4 ≤ State.reset.cfg.nmax)) ∧
    (¬ (260 % 4 = 0 ∧ 8 ≤ 260 ∧ 260 ≤ State.reset.cfg.nmax)) ∧
    (8 % 4 = 0 ∧ 8 ≤ 8 ∧ 8 ≤ State.reset.cfg.nmax) ∧
    (¬ (8 < 8 ∧ 8 ≤ State.reset.cfg.ordmax)) ∧
    (256 % 4 = 0 ∧ 8 ≤ 256 ∧ 256 ≤ State.reset.cfg.nmax) ∧
    (¬ (32 < 256 ∧ 32 ≤ State.reset.cfg.ordmax)) ∧ State.reset.cfg.lanes ≠ 1 ∧
    (configured { Config.default with lanes := 1 } []).cfg.lanes = 1 := by decide

theorem witness_LagSumsFitTheAccumulator :
    State.reset.cfg.Legal ∧ 256 ≤ State.reset.cfg.nmax ∧ 225 ≤ 256 - 31 := by decide

theorem witness_ScaleRange :
    State.reset.cfg.Legal ∧ 256 ≤ State.reset.cfg.nmax ∧
      (configured { Config.default with nmax := 32768 } []).cfg.Legal := by decide

/-- V-A4: a frame whose scale is 2. -/
theorem witness_CoefficientsFitExactly :
    (framed (List.replicate 8 32767)).cfg.Legal ∧ 8 ≤ (framed (List.replicate 8 32767)).cfg.nmax ∧
      0 < scaleOf (lagSum (framed (List.replicate 8 32767)).sample 8 0) := by decide

/-- V-A4 and its negated frame. -/
theorem witness_AutocorrelationProperties :
    let s := framed (List.replicate 8 32767)
    let s' := framed (List.replicate 8 (-32767))
    ∀ i ∈ [Instr.acorr 8 2, .acorrv 8 2],
      s.cfg.Legal ∧ exec i s = .next (nextOf (exec i s)) ∧ (nextOf (exec i s)).status = 0 ∧
        0 < (nextOf (exec i s)).scale.toNat ∧ s'.cfg = s.cfg ∧
        (∀ j, j < 8 → s'.sample j = -s.sample j) ∧ exec i s' = .next (nextOf (exec i s')) := by
  intro s s' i hi
  simp only [List.mem_cons, List.not_mem_nil, or_false] at hi
  rcases hi with rfl | rfl <;>
    exact ⟨by decide, rfl, by decide, by decide, rfl, by decide, rfl⟩

/-- V-A16: the same frame before and after an error. -/
theorem witness_AutocorrelationIsStateless :
    let s := framed [1, 2, 3, 4, 5, 6, 7, 8]
    let s' := s.raise .ctx 0x30020000
    s.cfg = s'.cfg ∧ (∀ j, j < 8 → s.sample j = s'.sample j) ∧
      exec (.acorr 8 2) s = .next (nextOf (exec (.acorr 8 2) s)) ∧
      exec (.acorr 8 2) s' = .next (nextOf (exec (.acorr 8 2) s')) ∧
      (nextOf (exec (.acorr 8 2) s)).status = 0 :=
  ⟨rfl, fun _ _ => rfl, rfl, rfl, by decide⟩

theorem witness_SourceScenarioAutocorrelation :
    let s := framed [1, 2, 3, 4, 5, 6, 7, 8]
    s.cfg.Legal ∧ 2 ≤ s.cfg.ordmax ∧ ∀ j, j < 8 → s.sample j = j + 1 := by decide

theorem witness_SectionWidths :
    (-32768 : Int) ≤ -32768 ∧ (-32768 : Int) ≤ 32767 ∧ (-32767 : Int) ≤ -32767 ∧
      (-32767 : Int) ≤ 32767 ∧ (-2 ^ 31 : Int) ≤ -2 ^ 31 ∧ (-2 ^ 31 : Int) ≤ 2 ^ 31 - 1 := by decide

theorem witness_DecimFiltersBothBranches :
    (streaming frameA).cfg.Legal ∧ DecimLegal (streaming frameA) 2 0 ∧
      DecimLegal (streaming frameA) 8 0 ∧ DecimLegal (streaming frameA) 256 0 := by decide

theorem witness_DecimPreconditions :
    (¬ 2 < State.reset.cfg.nctx) ∧ 1 < State.reset.cfg.nctx ∧
      (¬ (7 % 2 = 0 ∧ 2 ≤ 7 ∧ 7 ≤ State.reset.cfg.nmax)) ∧
      (¬ (0 % 2 = 0 ∧ 2 ≤ 0 ∧ 0 ≤ State.reset.cfg.nmax)) ∧
      (¬ (258 % 2 = 0 ∧ 2 ≤ 258 ∧ 258 ≤ State.reset.cfg.nmax)) ∧
      (256 % 2 = 0 ∧ 2 ≤ 256 ∧ 256 ≤ State.reset.cfg.nmax) ∧ (State.reset.ctx 1).valid = false ∧
      field 0x21050007 31 28 = 0x2 ∧ field 0x21050007 27 24 ≠ 0 := by decide

/-- V-D11 with frame `A` cut after its second sample. -/
theorem witness_FrameCutIndependence :
    let s1 := streaming [1000, -2000]
    let t1 := nextOf (exec (.decim 2 0) s1)
    let s2 := (framed [3000, -4000, 5000, -6000, 7000, -8000]).setCtx 0 (t1.ctx 0)
    let t2 := nextOf (exec (.decim 6 0) s2)
    let s3 := streaming frameA
    let t3 := nextOf (exec (.decim 8 0) s3)
    s1.cfg.Legal ∧ s2.cfg = s1.cfg ∧ s3.cfg = s1.cfg ∧ DecimLegal s1 2 0 ∧
      2 + 6 ≤ s1.cfg.nmax ∧ s3.ctx 0 = s1.ctx 0 ∧ (∀ j, j < 2 → s3.sample j = s1.sample j) ∧
      (∀ j, j < 6 → s3.sample (2 + j) = s2.sample j) ∧ exec (.decim 2 0) s1 = .next t1 ∧
      s2.ctx 0 = t1.ctx 0 ∧ exec (.decim 6 0) s2 = .next t2 ∧ exec (.decim (2 + 6) 0) s3 = .next t3 :=
  ⟨by decide, rfl, rfl, by decide, by decide, by decide, by decide, by decide, rfl, rfl, rfl, rfl⟩

/-- V-D2: the zero coefficients and the ramp. -/
theorem witness_ZeroCoefficientsDelay :
    let s := configured zeroCoefficients [1, 2, 3, 4, 5, 6, 7, 8]
    s.cfg.Legal ∧ DecimLegal s 8 0 ∧ s.ctx 0 = ApContext.zeroed ∧ s.cfg.apUpper0 = 0 ∧
      s.cfg.apUpper1 = 0 ∧ s.cfg.apLower0 = 0 ∧ s.cfg.apLower1 = 0 ∧
      exec (.decim 8 0) s = .next (nextOf (exec (.decim 8 0) s)) :=
  ⟨by decide, by decide, by decide, rfl, rfl, rfl, rfl, rfl⟩

/-- V-D1. -/
theorem witness_ZeroFrameLeavesZeroState :
    let s := streaming [0, 0, 0, 0, 0, 0, 0, 0]
    s.cfg.Legal ∧ DecimLegal s 8 0 ∧ s.ctx 0 = ApContext.zeroed ∧ ∀ j, j < 8 → s.sample j = 0 := by
  decide

/-- The same frame and context before and after an error. -/
theorem witness_DecimReadsOnlyFrameAndContext :
    let s := streaming frameA
    let s' := s.raise .len 0x20000007
    s.cfg = s'.cfg ∧ s.ctx 0 = s'.ctx 0 ∧ DecimLegal s 8 0 ∧ s.cfg.nctx ≤ 32 ∧
      (∀ j, j < 8 → s.sample j = s'.sample j) ∧
      exec (.decim 8 0) s = .next (nextOf (exec (.decim 8 0) s)) ∧
      exec (.decim 8 0) s' = .next (nextOf (exec (.decim 8 0) s')) :=
  ⟨rfl, rfl, by decide, by decide, fun _ _ => rfl, rfl, rfl⟩

theorem witness_ApinitZeroesItsContext :
    State.reset.cfg.Legal ∧ 0 < State.reset.cfg.nctx ∧ 1 < State.reset.cfg.nctx := by decide

theorem witness_ApinitPreconditions :
    State.reset.cfg.nctx ≤ 2 ∧ (field 0x31000000 31 28 = 0x3 ∧ field 0x31000000 27 24 ≠ 0) ∧
      (field 0x30010001 31 28 = 0x3 ∧ field 0x30010001 15 0 ≠ 0) := by decide

theorem witness_FailedCommandWritesOnlyItsRecord :
    State.reset.writeCmd 0x20000008 = .next (nextOf (State.reset.writeCmd 0x20000008)) ∧
      (nextOf (State.reset.writeCmd 0x20000008)).status ≠ 0 := ⟨rfl, by decide⟩

/-- V-E2, and both cases of `LANES`. -/
theorem witness_CodesEachCommandCanRaise :
    exec (.acorr 6 2) State.reset = .next (nextOf (exec (.acorr 6 2) State.reset)) ∧
      exec (.acorrv 8 2) (configured { Config.default with lanes := 1 } []) =
        .next (nextOf (exec (.acorrv 8 2) (configured { Config.default with lanes := 1 } []))) :=
  ⟨rfl, rfl⟩

/-- V-E4: a success after an error. -/
theorem witness_ErrorRecordDoesNotInfluenceCommands :
    let s := State.reset.raise .order 0x10080008
    s.writeCmd 0x30000000 = .next (nextOf (s.writeCmd 0x30000000)) ∧
      (nextOf (s.writeCmd 0x30000000)).status = 0 := ⟨rfl, by decide⟩

/-- P2: `DECIM` on a context that is not initialised, issued twice, then repaired. -/
theorem witness_FailuresAreReproducible :
    let s := framed frameA
    let t := nextOf (s.writeCmd 0x20000008)
    s.cfg.Legal ∧ t.cfg = s.cfg ∧ decodeWord 0x20000008 = .command (.decim 8 0) ∧
      (t.ctx 0).valid = (s.ctx 0).valid ∧ s.writeCmd 0x20000008 = .next t ∧ t.status.toNat = 5 ∧
      t.writeCmd 0x20000008 = .next (nextOf (t.writeCmd 0x20000008)) ∧
      exec (.decim 8 0) s = .next t :=
  ⟨by decide, rfl, by decide, rfl, rfl, by decide, rfl, rfl⟩

theorem witness_ConstantRegisters : State.reset.cfg.Legal := by decide

theorem witness_ApvalidShowsTheValidBits :
    (0 < 32 ∧ 0 < State.reset.cfg.nctx) ∧ 31 < 32 ∧ ¬ 31 < State.reset.cfg.nctx := by decide

/-- A memory with the last element of each of the three memories written. -/
def lastElements : Memory :=
  Memory.store16 (Memory.store16 (Memory.store32 [] 0x3007C 0x01020304) 0x200FE 0x0506) 0x101FE 0x0708

/-- Every clause is met: each register, both contexts at their last cell, initialised and not, each memory
at the end of its range with its element written, and a refused read beside each of them (V-M2). -/
theorem witness_ReadsAnswerTheReadableLocations :
    (∀ off ∈ [0x004, 0x008, 0x00C, 0x010, 0x014, 0x018, 0x01C, 0x020, 0x024, 0x028, 0x02C, 0x030, 0x034,
      0x038, 0x03C], (given (.read off 4)).pending = [.read off 4]) ∧
    State.reset.cfg.Legal ∧
    (1 < State.reset.cfg.nctx ∧ (State.reset.ctx 1).valid = false ∧ 0x400 + 0x20 * 1 + 4 * 4 = 0x430) ∧
    ((streaming []).cfg.Legal ∧ ((streaming []).ctx 0).valid = true ∧ 0x400 + 0x20 * 0 + 16 = 0x410) ∧
    (255 < Config.default.nmax ∧ 0x101FE = 0x10000 + 2 * 255 ∧
      Memory.find lastElements 0x101FE = some 0x08 ∧ Memory.find lastElements (0x101FE + 1) = some 0x07) ∧
    (127 < Config.default.nmax / 2 ∧ 0x200FE = 0x20000 + 2 * 127 ∧
      Memory.find lastElements 0x200FE = some 0x06 ∧ Memory.find lastElements (0x200FE + 1) = some 0x05) ∧
    (31 ≤ Config.default.ordmax ∧ 0x3007C = 0x30000 + 4 * 31 ∧
      Memory.find lastElements 0x3007C = some 0x04 ∧ Memory.find lastElements (0x3007C + 1) = some 0x03 ∧
      Memory.find lastElements (0x3007C + 2) = some 0x02 ∧ Memory.find lastElements (0x3007C + 3) = some 0x01) := by
  decide

/-- V-M2: no read of `CMD`, of a reserved register, of a cell past the last, of an element past the end, or
of the wrong size. -/
theorem witness_ReadsAnswerTheReadableLocations_refused :
    ∀ a ∈ [(0x000, 4), (0x040, 4), (0x006, 4), (0x004, 2), (0x414, 4), (0x440, 4), (0x10200, 2),
      (0x10001, 2), (0x10000, 4), (0x20100, 2), (0x30080, 4), (0x30000, 2), (0x10000, 3)],
      ¬ Readable Config.default a.1 a.2 := by
  intro a ha h
  simp only [List.mem_cons, List.not_mem_nil, or_false] at ha
  rcases ha with rfl | rfl | rfl | rfl | rfl | rfl | rfl | rfl | rfl | rfl | rfl | rfl | rfl <;>
    (simp only [Readable, Config.default] at h
     rcases h with ⟨h, h | ⟨c, i, h⟩ | ⟨k, h⟩⟩ | ⟨h, ⟨i, h⟩ | ⟨i, h⟩⟩ <;> omega)

/-- V-M1: what the window answers is the cell in the order of R40. -/
theorem test_read_window_order :
    let s := State.reset.setCtx 1 ⟨true, 10, 11, 12, 13, 0x00140000⟩
    (nextOf (step { s with pending := [.read 0x424 4] })).resp = .data32 11 ∧
      (nextOf (step { s with pending := [.read 0x42C 4] })).resp = .data32 13 ∧
      (nextOf (step { s with pending := [.read 0x430 4] })).resp = .data32 0x00140000 := by decide

theorem witness_WritesStoreTheirLocation :
    State.reset.cfg.Legal ∧ (given (.write 0x018 4 7)).pending = [.write 0x018 4 7] ∧
      (given (.write 0x01C 4 7)).pending = [.write 0x01C 4 7] ∧
      (0 < State.reset.cfg.nmax ∧
        (given (.write 0x10000 2 7)).pending = [.write (0x10000 + 2 * 0) 2 7]) ∧
      255 < State.reset.cfg.nmax ∧
        (given (.write 0x101FE 2 7)).pending = [.write (0x10000 + 2 * 255) 2 7] := by decide

/-- V-M2: a write of `STATUS`, a halfword write of `OPA`, a write beyond `XMEM`. -/
theorem witness_OtherWritesAreRefused :
    ∀ a ∈ [(0x004, 4), (0x018, 2), (0x10200, 2)],
      State.reset.cfg.Legal ∧ (given (.write a.1 a.2 0)).pending = [.write a.1 a.2 0] ∧
        ¬ Writable State.reset.cfg a.1 a.2 := by
  intro a ha
  simp only [List.mem_cons, List.not_mem_nil, or_false] at ha
  rcases ha with rfl | rfl | rfl <;> refine ⟨by decide, rfl, fun h => ?_⟩ <;>
    (simp only [Writable, State.reset, State.resetWith, Config.default] at h
     rcases h with ⟨h, _ | _ | _⟩ | ⟨h, i, hi, ho⟩ <;> omega)

theorem witness_BusErrorChangesNothing :
    ∀ op ∈ [HostOp.read 0 4, .write 0x004 4 0],
      (given op).pending = op :: [] ∧ ∃ off, (nextOf (step (given op))).resp = .busError off := by
  intro op hop
  simp only [List.mem_cons, List.not_mem_nil, or_false] at hop
  rcases hop with rfl | rfl
  · exact ⟨rfl, 0, by decide⟩
  · exact ⟨rfl, 4, by decide⟩

/-- Each general register does change, and a command that is no helper runs. -/
theorem witness_WhoWritesTheGeneralRegisters :
    (∀ op ∈ [HostOp.write 0x018 4 7, .write 0x01C 4 7, .write 0x000 4 0xC0000000],
      ¬ (given op).NextIsReset ∧ step (given op) = .next (nextOf (step (given op)))) ∧
    (nextOf (step (given (.write 0x018 4 7)))).opa ≠ (given (.write 0x018 4 7)).opa ∧
    (nextOf (step (given (.write 0x01C 4 7)))).opb ≠ (given (.write 0x01C 4 7)).opb ∧
    (nextOf (step (given (.write 0x000 4 0xC0000000)))).res ≠
      (given (.write 0x000 4 0xC0000000)).res ∧
    (Instr.apinit 0).opc < 8 ∧
    exec (.apinit 0) State.reset = .next (nextOf (exec (.apinit 0) State.reset)) := by
  refine ⟨fun op hop => ?_, by decide, by decide, by decide, by decide, rfl⟩
  simp only [List.mem_cons, List.not_mem_nil, or_false] at hop
  rcases hop with rfl | rfl | rfl <;> exact ⟨fun ⟨_, h⟩ => (by cases h), rfl⟩

/-- Context 0 changes by `APINIT 0`, by `DECIM 8, 0` and by reset. -/
theorem witness_WhoWritesTheContexts :
    let afterInit := nextOf (step (given (.write 0 4 0x30000000)))
    let stream := { streaming frameA with pending := [.write 0 4 0x20000008] }
    (step (given (.write 0 4 0x30000000)) = .next afterInit ∧
      afterInit.ctxs[0] ≠ (given (.write 0 4 0x30000000)).ctxs[0]) ∧
    (step stream = .next (nextOf (step stream)) ∧
      (nextOf (step stream)).ctxs[0] ≠ stream.ctxs[0]) ∧
    ({ stream with pending := [.reset] } : State).NextIsReset ∧ (1 : Nat) ≠ 0 ∧
    exec (.decim 8 0) stream = .next (nextOf (exec (.decim 8 0) stream)) ∧
    exec (.apinit 0) stream = .next (nextOf (exec (.apinit 0) stream)) :=
  ⟨⟨rfl, by decide⟩, ⟨rfl, by decide⟩, ⟨[], rfl⟩, by decide, rfl, rfl⟩

theorem witness_OnlyResetClearsAValidBit :
    let s := { streaming frameA with pending := [.write 0 4 0x20000008] }
    step s = .next (nextOf (step s)) ∧ ¬ s.NextIsReset ∧ s.ctxs[0].valid = true :=
  ⟨rfl, fun ⟨_, h⟩ => (by cases h), by decide⟩

/-- V-D4 writes `YMEM[3]`, V-A5 writes `RMEM[7]`, with `ACORR` and with `ACORRV`. -/
theorem witness_WhoWritesTheMemories :
    let s := streaming frameA
    (∀ i ∈ [Instr.decim 8 0, .acorr 8 7, .acorrv 8 7], (nextOf (exec i s)).status = 0) ∧
    Memory.find (nextOf (exec (.decim 8 0) s)).mem 0x20007 ≠ Memory.find s.mem 0x20007 ∧
    Memory.find (nextOf (exec (.acorr 8 7) s)).mem 0x3001F ≠ Memory.find s.mem 0x3001F ∧
    Memory.find (nextOf (exec (.acorrv 8 7) s)).mem 0x3001F ≠ Memory.find s.mem 0x3001F := by decide

theorem witness_StickyErrorsSurvive :
    let s := given (.write 0 4 0x20000008)
    step s = .next (nextOf (step s)) ∧ ¬ s.NextIsReset ∧ s.NextIsCommandWrite 0x20000008 ∧
      (nextOf (step s)).status ≠ 0 :=
  ⟨rfl, fun ⟨_, h⟩ => (by cases h), ⟨[], rfl⟩, by decide⟩

theorem witness_ResetState : ({ streaming frameA with pending := [.reset] } : State).pending = [.reset] :=
  rfl

theorem witness_ResetMeetsTheInvariant : Config.default.Legal := by decide

/-- A state that a `DECIM` and then a failure have left meets every invariant, and steps on. -/
theorem witness_InvariantsKept :
    let t := nextOf (exec (.decim 8 0) (streaming frameA))
    let s := { t.raise .len 0x20000007 with pending := [.write 0 4 0x10070008] }
    s.Inv ∧ step s = .next (nextOf (step s)) := by
  refine ⟨⟨?_, ?_, ?_, ?_, ?_⟩, rfl⟩ <;> decide

end Sys2Proof.Machine
end

section
/-! PROOF of O59 (rules R9, R40, R41, R175): what each writer of the contexts leaves in them, and that
every other operation leaves them alone. -/

namespace Sys2Proof.Machine

open Sys2Proof

/-- `v << 16` leaves the low half of a cell zero, also where it wraps (R66, R175). -/
theorem pattern32_mul_65536_mod (v : Int) : (pattern32 (v * 65536)).toNat % 65536 = 0 := by
  rw [pattern32, BitVec.toNat_ofInt]
  omega

/-- The carry cell `DECIM` leaves is the last sample of its frame times `2^16` (R175, R176). -/
theorem decimate_carry (cfg : Config) (x : ApContext) (n : Nat) (frame : List Int) :
    (decimate cfg x n frame).2.carry = pattern32 (frame.getD (n - 1) 0 * 65536) := rfl

/-- The context invariant speaks of the parameters and the contexts only. -/
theorem contextInv_congr {s t : State} (hcfg : t.cfg = s.cfg) (hctxs : t.ctxs = s.ctxs) :
    t.ContextInv ↔ s.ContextInv := by
  simp only [State.ContextInv, hcfg, hctxs]

/-- An existing context may be replaced by one whose carry cell is a multiple of `2^16`. -/
theorem contextInv_setCtx {s : State} {c : Nat} {x : ApContext} (hs : s.ContextInv)
    (hc : c < s.cfg.nctx) (hx : x.carry.toNat % 65536 = 0) : (s.setCtx c x).ContextInv := by
  intro d hd
  simp only [State.setCtx_ctxs, State.setCtx_cfg, Fin.getElem_fin,
    Vector.getElem_setIfInBounds] at hd ⊢
  by_cases hcd : c = d.val
  · rw [if_pos hcd]
    exact ⟨hcd ▸ hc, hx⟩
  · rw [if_neg hcd] at hd ⊢
    exact hs d hd

/-- Reset leaves no context initialised (R52). -/
theorem contextInv_resetBlock (s : State) : s.resetBlock.ContextInv := by
  intro d hd
  simp [ApContext.uninitialised] at hd

/-- Every command keeps the context invariant: `DECIM` and `APINIT` check that their context exists
and leave its carry cell a multiple of `2^16`; no other command writes a context (R42). -/
theorem exec_contextInv {i : Instr} {s t : State} (hs : s.ContextInv) (h : exec i s = .next t) :
    t.ContextInv := by
  rcases exec_cases h with ⟨code, rfl, -⟩ | ⟨n, order, -, -, rfl⟩ | ⟨n, order, -, -, -, rfl⟩ |
    ⟨n, c, -, hlegal, rfl⟩ | ⟨c, -, hc, rfl⟩ | ⟨-, v, rfl⟩
  · exact (contextInv_congr rfl rfl).2 hs
  · exact (contextInv_congr rfl rfl).2 hs
  · exact (contextInv_congr rfl rfl).2 hs
  · have hcarry : (decimate s.cfg (s.ctx c) n (s.frame n)).2.carry.toNat % 65536 = 0 := by
      rw [decimate_carry]
      exact pattern32_mul_65536_mod _
    exact (contextInv_congr rfl rfl).2 (contextInv_setCtx hs hlegal.1 hcarry)
  · exact (contextInv_congr rfl rfl).2 (contextInv_setCtx hs hc rfl)
  · exact (contextInv_congr rfl rfl).2 hs

/-- A write to `CMD` keeps the context invariant, whatever the word (R25, R96). -/
theorem writeCmd_contextInv {s t : State} {w : Word} (hs : s.ContextInv)
    (h : s.writeCmd w = .next t) : t.ContextInv := by
  rcases State.writeCmd_cases s w with ⟨i, -, hexec⟩ | ⟨why, -, hraise⟩
  · exact exec_contextInv hs (hexec ▸ h)
  · cases hraise.symm.trans h
    exact (contextInv_congr rfl rfl).2 hs

/-- Settles O59, by the cases of a step: only a command and reset write a context. -/
theorem contextInvariantKept : Obligations.ContextInvariantKept := by
  intro s t hs h
  rcases step_cases h with ⟨-, rfl⟩ | ⟨op, rest, -, hop⟩
  · exact hs
  have haccept : (s.accept rest).ContextInv := (contextInv_congr rfl rfl).2 hs
  rcases hop with ⟨off, n, r, -, rfl⟩ | ⟨-, rfl⟩ | ⟨w, -, hcmd⟩ | ⟨v, -, rfl⟩ | ⟨v, -, rfl⟩ |
    ⟨v, i, -, -, rfl⟩ | ⟨off, n, v, -, -, rfl⟩
  · exact (contextInv_congr rfl rfl).2 haccept
  · exact contextInv_resetBlock _
  · exact writeCmd_contextInv haccept hcmd
  all_goals exact (contextInv_congr rfl rfl).2 haccept

end Sys2Proof.Machine
end

section
/-! PROOF, shared by the statements about every step (rules R25, R52, R96, R216): the word a command
is decoded from, what a write to `CMD` leaves, and the three things a step can be: reset, a command, or
port traffic that leaves the registers a command owns alone. -/

namespace Sys2Proof.Machine

open Sys2Proof

/-- A word is its opcode and the 28 bits below it, formats A, D and I cut alike (R92 to R94). -/
theorem toNat_eq_fields (w : Word) :
    w.toNat =
      field w 31 28 * 2 ^ 28 + field w 27 24 * 2 ^ 24 + field w 23 16 * 2 ^ 16 + field w 15 0 := by
  have := w.isLt
  norm_num [field] at *
  omega

/-- `ORDER` of format A covers the must-be-zero bits and `CTX` of format D (R92, R93). -/
theorem field_27_16 (w : Word) : field w 27 16 = field w 27 24 * 2 ^ 8 + field w 23 16 := by
  norm_num [field]
  omega

/-- The must-be-zero bits of format H cover every operand field of the others (R92 to R95). -/
theorem field_27_0 (w : Word) :
    field w 27 0 = field w 27 24 * 2 ^ 24 + field w 23 16 * 2 ^ 16 + field w 15 0 := by
  norm_num [field]
  omega

theorem decodeH_eq_command {w : Word} {i j : Instr} (h : decodeH w i = .command j) :
    j = i ∧ field w 27 0 = 0 := by
  unfold decodeH at h
  split at h <;> cases h
  exact ⟨rfl, ‹_›⟩

theorem decodeD_eq_command {w : Word} {i : Instr} (h : decodeD w = .command i) :
    i = .decim (field w 15 0) (field w 23 16) ∧ field w 27 24 = 0 := by
  unfold decodeD at h
  split at h <;> cases h
  exact ⟨rfl, ‹_›⟩

theorem decodeI_eq_command {w : Word} {i : Instr} (h : decodeI w = .command i) :
    i = .apinit (field w 23 16) ∧ field w 27 24 = 0 ∧ field w 15 0 = 0 := by
  unfold decodeI at h
  split at h
  · split at h <;> cases h
    exact ⟨rfl, ‹_›, ‹_›⟩
  · cases h

/-- A decoded command determines its word: every bit is an opcode, an operand or a checked zero (R96). -/
theorem toNat_of_decodeWord {w : Word} {i : Instr} (h : decodeWord w = .command i) :
    w.toNat = i.opc * 2 ^ 28 + i.operandBits := by
  have hw := toNat_eq_fields w
  have h16 := field_27_16 w
  have h0 := field_27_0 w
  unfold decodeWord at h
  split at h
  case h_1 hopc => cases h; simp only [Instr.opc, Instr.operandBits]; omega
  case h_2 hopc =>
    obtain ⟨rfl, hz⟩ := decodeD_eq_command h
    simp only [Instr.opc, Instr.operandBits]; omega
  case h_3 hopc =>
    obtain ⟨rfl, hz, hn⟩ := decodeI_eq_command h
    simp only [Instr.opc, Instr.operandBits]; omega
  case h_4 hopc => cases h; simp only [Instr.opc, Instr.operandBits]; omega
  case h_10 => cases h
  all_goals
    obtain ⟨rfl, hz⟩ := decodeH_eq_command h
    simp only [Instr.opc, Instr.operandBits]; omega

/-- A decoded command encodes to the word it came from, so `ECMD` of its failure is that word (R28). -/
theorem encode_of_decodeWord {w : Word} {i : Instr} (h : decodeWord w = .command i) :
    encode i = w := by
  rw [encode, ← toNat_of_decodeWord h, BitVec.ofNat_toNat, BitVec.setWidth_eq]

/-- A write to `CMD` records a failure of the written word, or a command completes (R96, R216). -/
theorem writeCmd_raise_or_complete {s t : State} {w : Word} (h : s.writeCmd w = .next t) :
    (∃ code, t = s.raise code w) ∨
      (∃ i, decodeWord w = .command i ∧ exec i s = .next t ∧ t.status = 0) := by
  rcases State.writeCmd_cases s w with ⟨i, hi, hexec⟩ | ⟨why, -, hraise⟩
  · have hrun : exec i s = .next t := hexec ▸ h
    rcases exec_status hrun with h0 | ⟨code, rfl⟩
    · exact .inr ⟨i, hi, hrun, h0⟩
    · exact .inl ⟨code, by rw [encode_of_decodeWord hi]⟩
  · cases hraise.symm.trans h
    exact .inl ⟨_, rfl⟩

/-- A step with a write to `CMD` to come is that write (R25, R75). -/
theorem step_of_commandWrite {s : State} {w : Word} {rest : List HostOp}
    (h : s.pending = .write 0x000 4 w :: rest) : step s = (s.accept rest).writeCmd w := by
  have hloc : locate (s.accept rest).cfg 0x000 4 = some (.reg .cmd) := locate_reg _ .cmd
  rw [step_of_pending h, State.perform, State.portWrite, hloc]

/-- What port traffic that is neither reset nor a write to `CMD` leaves alone: the parameters, the
contexts, and every register that only a command writes. -/
structure State.OnlyPortTraffic (s t : State) : Prop where
  cfg : t.cfg = s.cfg
  status : t.status = s.status
  esticky : t.esticky = s.esticky
  ecmd : t.ecmd = s.ecmd
  scale : t.scale = s.scale
  outlen : t.outlen = s.outlen
  res : t.res = s.res
  ctxs : t.ctxs = s.ctxs

/-- A step is reset, a write to `CMD`, or port traffic. -/
theorem step_reset_command_or_traffic {s t : State} (h : step s = .next t) :
    (∃ rest, s.pending = .reset :: rest ∧ t = (s.accept rest).resetBlock) ∨
    (∃ w rest, s.pending = .write 0x000 4 w :: rest ∧ (s.accept rest).writeCmd w = .next t) ∨
    s.OnlyPortTraffic t := by
  rcases step_cases h with ⟨-, rfl⟩ | ⟨op, rest, hp, hop⟩
  · exact .inr (.inr ⟨rfl, rfl, rfl, rfl, rfl, rfl, rfl, rfl⟩)
  rcases hop with ⟨_, _, _, -, rfl⟩ | ⟨rfl, rfl⟩ | ⟨w, rfl, hcmd⟩ | ⟨_, -, rfl⟩ | ⟨_, -, rfl⟩ |
    ⟨_, _, -, -, rfl⟩ | ⟨_, _, _, -, -, rfl⟩
  · exact .inr (.inr ⟨rfl, rfl, rfl, rfl, rfl, rfl, rfl, rfl⟩)
  · exact .inl ⟨rest, hp, rfl⟩
  · exact .inr (.inl ⟨w, rest, hp, hcmd⟩)
  all_goals exact .inr (.inr ⟨rfl, rfl, rfl, rfl, rfl, rfl, rfl, rfl⟩)

end Sys2Proof.Machine
end

section
/-! PROOF of O57 and O54 (rules R26 to R28, R211, R216): the error record of a failure, and that nothing
else writes `ESTICKY` and `ECMD`. -/

namespace Sys2Proof.Machine

open Sys2Proof

/-- The bit a failure sets is that of its code (R27, R216). -/
theorem getLsbD_raise_esticky (s : State) (code : ErrorCode) (w : Word) :
    (s.raise code w).esticky.getLsbD (s.raise code w).status.toNat = true := by
  rw [State.raise_esticky, State.raise_status, BitVec.getLsbD_or]
  cases code <;> simp [ErrorCode.stickyBit, statusWord, ErrorCode.number]

/-- The status invariant speaks of the three status registers only. -/
theorem statusInv_congr {s t : State} (hstatus : t.status = s.status)
    (hesticky : t.esticky = s.esticky) (hecmd : t.ecmd = s.ecmd) : t.StatusInv ↔ s.StatusInv := by
  simp only [State.StatusInv, hstatus, hesticky, hecmd]

/-- A failure's record is consistent: its code is one of five, its sticky bit is set, and no bit outside
5:1 is (R211, R216). -/
theorem statusInv_raise {s : State} (hs : s.StatusInv) (code : ErrorCode) (w : Word) :
    (s.raise code w).StatusInv := by
  obtain ⟨-, hmask, -, -⟩ := hs
  have hbit := getLsbD_raise_esticky s code w
  refine ⟨?_, ?_, fun _ => hbit, fun h0 => ?_⟩
  · rw [State.raise_status]
    cases code <;> decide
  · have hcode : code.stickyBit &&& 0xFFFFFFC1 = 0 := by cases code <;> decide
    rw [State.raise_esticky, BitVec.and_or_distrib_right, hmask, hcode]
    rfl
  · rw [h0] at hbit
    simp at hbit

/-- Completing clears the code and leaves the rest of the record (R26, R217). -/
theorem statusInv_complete {s t : State} (hs : s.StatusInv) (hstatus : t.status = 0)
    (hesticky : t.esticky = s.esticky) (hecmd : t.ecmd = s.ecmd) : t.StatusInv := by
  obtain ⟨-, hmask, -, hnone⟩ := hs
  exact ⟨by simp [hstatus], by rw [hesticky, hmask], fun h => absurd hstatus h,
    by rw [hesticky, hecmd]; exact hnone⟩

theorem writeCmd_statusInv {s t : State} {w : Word} (hs : s.StatusInv) (h : s.writeCmd w = .next t) :
    t.StatusInv := by
  rcases writeCmd_raise_or_complete h with ⟨code, rfl⟩ | ⟨i, -, hrun, h0⟩
  · exact statusInv_raise hs code w
  · obtain ⟨-, -, -, -, -, -, hrecord⟩ := exec_keeps hrun
    obtain ⟨hesticky, hecmd⟩ := hrecord h0
    exact statusInv_complete hs h0 hesticky hecmd

/-- Settles O57, by what a step can be: only reset and a command write the status registers. -/
theorem statusInvariantKept : Obligations.StatusInvariantKept := by
  intro s t hs h
  rcases step_reset_command_or_traffic h with ⟨rest, -, rfl⟩ | ⟨w, rest, -, hcmd⟩ | htraffic
  · exact ⟨by simp, by simp, by simp, by simp⟩
  · exact writeCmd_statusInv (s := s.accept rest) hs hcmd
  · exact (statusInv_congr htraffic.status htraffic.esticky htraffic.ecmd).2 hs

/-- A write to `CMD` clears no sticky bit, and a failure sets its own and records the word (R27, R28). -/
theorem writeCmd_sticky {s t : State} {w : Word} (h : s.writeCmd w = .next t) :
    s.esticky &&& t.esticky = s.esticky ∧
      (t.status ≠ 0 → t.esticky.getLsbD t.status.toNat = true ∧ t.ecmd = w) := by
  rcases writeCmd_raise_or_complete h with ⟨code, rfl⟩ | ⟨i, -, hrun, h0⟩
  · refine ⟨?_, fun _ => ⟨getLsbD_raise_esticky s code w, rfl⟩⟩
    ext i
    simp +contextual
  · obtain ⟨-, -, -, -, -, -, hrecord⟩ := exec_keeps hrun
    rw [(hrecord h0).1, BitVec.and_self]
    exact ⟨rfl, fun h => absurd h0 h⟩

/-- Settles O54, by what a step can be; the word in `ECMD` is the written one by `encode_of_decodeWord`. -/
theorem stickyErrorsSurvive : Obligations.StickyErrorsSurvive := by
  intro s t h hreset
  constructor
  · rcases step_reset_command_or_traffic h with ⟨rest, hp, -⟩ | ⟨w, rest, -, hcmd⟩ | htraffic
    · exact absurd ⟨rest, hp⟩ hreset
    · exact (writeCmd_sticky hcmd).1
    · rw [htraffic.esticky, BitVec.and_self]
  · rintro w ⟨rest, hp⟩ hfail
    exact (writeCmd_sticky (step_of_commandWrite hp ▸ h)).2 hfail

end Sys2Proof.Machine
end

section
/-! PROOF of O60 (rules R29, R30, R147): the energy of a frame is at most `2^45`, so its scale is at most
15; and that only the frame commands write `SCALE` and `OUTLEN`. -/

namespace Sys2Proof.Machine

open Sys2Proof

/-- An accumulator that goes on where another stopped (R151). -/
theorem accumulate_add (total : Int) (f : Nat → Int) (a b : Nat) :
    accumulate (accumulate total f a) (fun j => f (a + j)) b = accumulate total f (a + b) := by
  induction b with
  | zero => rfl
  | succ b ih => rw [accumulate, ih, ← Nat.add_assoc, accumulate]

/-- Whole groups into a running total are their products in scalar order (R151). -/
theorem accumulate_groupSum (lanes : Nat) (x : Nat → Int) (k groups : Nat) :
    accumulate 0 (groupSum lanes x k) groups = accumulate 0 (lagTerm x k) (groups * lanes) := by
  induction groups with
  | zero => simp [accumulate]
  | succ groups ih =>
    rw [accumulate, ih, groupSum, Nat.succ_mul, ← accumulate_add]
    simp only [accumulate_eq_sum, zero_add]

/-- The group-wise sum with its scalar tail is the scalar sum, for every width (R151, R152). -/
theorem groupedLagSum_eq_lagSum (lanes : Nat) (x : Nat → Int) (n k : Nat) :
    groupedLagSum lanes x n k = lagSum x n k := by
  have hgroups : (n - k) / lanes * lanes ≤ n - k := Nat.div_mul_le_self _ _
  rw [groupedLagSum, accumulate_groupSum, accumulate_add, Nat.add_sub_cancel' hgroups, lagSum]

/-- The energy of a frame of signed 16-bit samples (R146, R147). -/
theorem lagSum_zero_range (s : State) (n : Nat) :
    0 ≤ lagSum s.sample n 0 ∧ lagSum s.sample n 0 ≤ n * 2 ^ 30 := by
  have hterm (j : Nat) : 0 ≤ s.sample j * s.sample j ∧ s.sample j * s.sample j ≤ 2 ^ 30 := by
    obtain ⟨hlo, hhi⟩ := sample_range s j
    constructor <;> nlinarith
  rw [lagSum_eq_sum]
  constructor
  · exact Finset.sum_nonneg fun j _ => (hterm j).1
  · have := Finset.sum_le_card_nsmul (Finset.range n) (fun j => s.sample j * s.sample j) (2 ^ 30)
      fun j _ => (hterm j).2
    simpa using this

/-- The bit length is the least `k` with `u < 2 ^ k` (R127). -/
theorem bitLength_le_iff {u k : Nat} : bitLength u ≤ k ↔ u < 2 ^ k := by
  unfold bitLength
  split
  · simp [*]
  · rw [Nat.succ_le_iff, Nat.log2_lt ‹_›]

/-- An energy up to `2^45` is at most `2^14` after the shift by 31, so its scale is at most 15
(R128, R147). -/
theorem scaleOf_le_15 {p : Int} (h0 : 0 ≤ p) (h : p ≤ 2 ^ 45) : scaleOf p ≤ 15 := by
  have ht : zext32 (asr p 31) < 2 ^ 15 := by
    rw [zext32, asr, BitVec.toNat_ofInt]
    omega
  have hlen := bitLength_le_iff.2 ht
  simp only [scaleOf, clz32]
  split <;> omega

/-- The scale and the length `ACORR` and `ACORRV` leave (R147, R149). -/
theorem resultInv_storeCoefficients {s : State} {n order : Nat} {prod : Nat → Int}
    (hs : s.cfg.Legal) (hlegal : AcorrLegal s.cfg n order) (hprod : prod 0 = lagSum s.sample n 0) :
    (s.storeCoefficients prod order).succeed.ResultInv := by
  obtain ⟨-, -, hn, -, horder⟩ := hlegal
  obtain ⟨⟨-, -, hnmax⟩, -⟩ := hs
  obtain ⟨hlo, hhi⟩ := lagSum_zero_range s n
  have hscale : scaleOf (prod 0) ≤ 15 := by
    rw [hprod]
    exact scaleOf_le_15 hlo (by omega)
  constructor
  · rw [State.succeed_scale, State.storeCoefficients_scale, pattern32, BitVec.toNat_ofInt]
    omega
  · rw [State.succeed_outlen, State.succeed_cfg, State.storeCoefficients_outlen,
      State.storeCoefficients_cfg, BitVec.toNat_ofNat]
    omega

/-- The result invariant speaks of the parameters, `SCALE` and `OUTLEN` only. -/
theorem resultInv_congr {s t : State} (hcfg : t.cfg = s.cfg) (hscale : t.scale = s.scale)
    (houtlen : t.outlen = s.outlen) : t.ResultInv ↔ s.ResultInv := by
  simp only [State.ResultInv, hcfg, hscale, houtlen]

/-- Every command keeps the result invariant: a frame command checks its operands first (R141, R171), and
no other command writes `SCALE` or `OUTLEN`. -/
theorem exec_resultInv {i : Instr} {s t : State} (hcfg : s.cfg.Legal) (hs : s.ResultInv)
    (h : exec i s = .next t) : t.ResultInv := by
  rcases exec_cases h with ⟨code, rfl, -⟩ | ⟨n, order, -, hlegal, rfl⟩ |
    ⟨n, order, -, -, hlegal, rfl⟩ | ⟨n, c, -, hlegal, rfl⟩ | ⟨c, -, -, rfl⟩ | ⟨-, v, rfl⟩
  · exact hs
  · exact resultInv_storeCoefficients hcfg hlegal rfl
  · exact resultInv_storeCoefficients hcfg hlegal (groupedLagSum_eq_lagSum _ _ _ _)
  · obtain ⟨-, -, -, hn, -⟩ := hlegal
    refine ⟨hs.1, .inr ?_⟩
    rw [State.succeed_outlen, State.storeDecimated_outlen, BitVec.toNat_ofNat]
    exact (Nat.mod_le _ _).trans (Nat.div_le_div_right hn)
  · exact hs
  · exact hs

/-- Settles O60, by what a step can be; an illegal word and a failed command leave both registers. -/
theorem resultInvariantKept : Obligations.ResultInvariantKept := by
  intro s t hcfg hs h
  rcases step_reset_command_or_traffic h with ⟨rest, -, rfl⟩ | ⟨w, rest, -, hcmd⟩ | htraffic
  · exact ⟨by simp, by simp⟩
  · rcases writeCmd_raise_or_complete hcmd with ⟨code, rfl⟩ | ⟨i, -, hrun, -⟩
    · exact hs
    · exact exec_resultInv (s := s.accept rest) hcfg hs hrun
  · exact (resultInv_congr htraffic.cfg htraffic.scale htraffic.outlen).2 hs

end Sys2Proof.Machine
end

section
/-! PROOF of O58 and O53 (rules R45 to R47, R61, R70, R149, R180): a store writes one whole element, the
element of each written offset is the one the address map puts there, and what each command writes. -/

namespace Sys2Proof.Machine

open Sys2Proof

/-- Every listed byte belongs to an element all of whose bytes are written (R61). -/
def Memory.Whole (cfg : Config) (m : Memory) : Prop :=
  ∀ p ∈ m, elementWritten cfg m p.1 = true

theorem memoryInv_iff {s : State} : s.MemoryInv ↔ Memory.wf s.mem ∧ Memory.Whole s.cfg s.mem := by
  simp only [State.MemoryInv, Memory.Whole, List.all_eq_true]

theorem elementWritten_iff {cfg : Config} {m : Memory} {a : Nat} :
    elementWritten cfg m a = true ↔ ∃ start size, elementOf cfg a = some (start, size) ∧
      ∀ d < size, (Memory.find m (start + d)).isSome = true := by
  unfold elementWritten
  rcases elementOf cfg a with _ | ⟨start, size⟩ <;> simp [and_assoc]

/-- The byte `d` of `XMEM[i]` belongs to `XMEM[i]` (R45, R70). -/
theorem elementOf_xmem {cfg : Config} {i d : Nat} (hi : i < cfg.nmax) (hd : d < 2) :
    elementOf cfg (xmemAddr i + d) = some (xmemAddr i, 2) := by
  rw [elementOf, if_pos (by simp only [xmemAddr]; omega)]
  simp only [xmemAddr, Option.some.injEq, Prod.mk.injEq, and_true]
  omega

/-- The byte `d` of `YMEM[i]` belongs to `YMEM[i]` (R46, R70). -/
theorem elementOf_ymem {cfg : Config} (hl : cfg.Legal) {i d : Nat} (hi : i < cfg.nmax / 2)
    (hd : d < 2) : elementOf cfg (ymemAddr i + d) = some (ymemAddr i, 2) := by
  obtain ⟨⟨-, -, hnmax⟩, -⟩ := hl
  rw [elementOf, if_neg (by simp only [xmemAddr, ymemAddr]; omega),
    if_pos (by simp only [ymemAddr]; omega)]
  simp only [ymemAddr, Option.some.injEq, Prod.mk.injEq, and_true]
  omega

/-- The byte `d` of `RMEM[k]` belongs to `RMEM[k]` (R47, R70). -/
theorem elementOf_rmem {cfg : Config} (hl : cfg.Legal) {k d : Nat} (hk : k ≤ cfg.ordmax)
    (hd : d < 4) : elementOf cfg (rmemAddr k + d) = some (rmemAddr k, 4) := by
  obtain ⟨⟨-, -, hnmax⟩, -⟩ := hl
  rw [elementOf, if_neg (by simp only [xmemAddr, rmemAddr]; omega),
    if_neg (by simp only [ymemAddr, rmemAddr]; omega), if_pos (by simp only [rmemAddr]; omega)]
  simp only [rmemAddr, Option.some.injEq, Prod.mk.injEq, and_true]
  omega

theorem Memory.mem_store16 {m : Memory} {a : Nat} {v : Half} {p : Host.Cell}
    (h : p ∈ m.store16 a v) : p ∈ m ∨ a ≤ p.1 ∧ p.1 < a + 2 := by
  rcases Memory.mem_set h with rfl | h
  · simp
  · rcases Memory.mem_set h with rfl | h
    · simp
    · exact .inl h

theorem Memory.mem_store32 {m : Memory} {a : Nat} {v : Word} {p : Host.Cell}
    (h : p ∈ m.store32 a v) : p ∈ m ∨ a ≤ p.1 ∧ p.1 < a + 4 := by
  rcases Memory.mem_store16 h with h | h
  · rcases Memory.mem_store16 h with h | h
    · exact .inl h
    · exact .inr (by omega)
  · exact .inr (by omega)

theorem Memory.isSome_find_store16 {m : Memory} {a x : Nat} {v : Half} :
    (Memory.find (m.store16 a v) x).isSome = true ↔
      a ≤ x ∧ x < a + 2 ∨ (Memory.find m x).isSome = true := by
  by_cases hx : a ≤ x ∧ x < a + 2
  · obtain rfl | rfl : x = a ∨ x = a + 1 := by omega
    all_goals simp [Memory.find_store16]
  · rw [Memory.find_store16_of_not_mem _ _ _ _ (by omega)]
    exact (or_iff_right hx).symm

theorem Memory.isSome_find_store32 {m : Memory} {a x : Nat} {v : Word} :
    (Memory.find (m.store32 a v) x).isSome = true ↔
      a ≤ x ∧ x < a + 4 ∨ (Memory.find m x).isSome = true := by
  rw [Memory.store32, Memory.isSome_find_store16, Memory.isSome_find_store16, ← or_assoc]
  exact or_congr_left (by omega)

/-- Writing all bytes of one element, and nothing else, keeps the elements whole (R61). -/
theorem Memory.whole_of_writes_element {cfg : Config} {m m' : Memory} {start size : Nat}
    (hm : Memory.Whole cfg m)
    (helement : ∀ d < size, elementOf cfg (start + d) = some (start, size))
    (hlisted : ∀ p ∈ m', p ∈ m ∨ start ≤ p.1 ∧ p.1 < start + size)
    (hwritten : ∀ x, (Memory.find m' x).isSome = true ↔
      start ≤ x ∧ x < start + size ∨ (Memory.find m x).isSome = true) :
    Memory.Whole cfg m' := by
  intro p hp
  rw [elementWritten_iff]
  rcases hlisted p hp with hold | ⟨hlo, hhi⟩
  · obtain ⟨start', size', helem, hall⟩ := elementWritten_iff.1 (hm p hold)
    exact ⟨start', size', helem, fun d hd => (hwritten _).2 (.inr (hall d hd))⟩
  · have helem := helement (p.1 - start) (by omega)
    rw [Nat.add_sub_cancel' hlo] at helem
    exact ⟨start, size, helem, fun d hd => (hwritten _).2 (.inl (by omega))⟩

theorem Memory.whole_store16 {cfg : Config} {m : Memory} {a : Nat} (v : Half)
    (hm : Memory.Whole cfg m) (ha : ∀ d < 2, elementOf cfg (a + d) = some (a, 2)) :
    Memory.Whole cfg (m.store16 a v) :=
  Memory.whole_of_writes_element hm ha (fun _ => Memory.mem_store16)
    fun _ => Memory.isSome_find_store16

theorem Memory.whole_store32 {cfg : Config} {m : Memory} {a : Nat} (v : Word)
    (hm : Memory.Whole cfg m) (ha : ∀ d < 4, elementOf cfg (a + d) = some (a, 4)) :
    Memory.Whole cfg (m.store32 a v) :=
  Memory.whole_of_writes_element hm ha (fun _ => Memory.mem_store32)
    fun _ => Memory.isSome_find_store32

/-- A run of samples that stays inside `YMEM` keeps the elements whole (R46, R180). -/
theorem Memory.whole_storeHalves_ymem {cfg : Config} (hl : cfg.Legal) (vs : List Half) :
    ∀ {m : Memory} {i : Nat}, Memory.Whole cfg m → i + vs.length ≤ cfg.nmax / 2 →
      Memory.Whole cfg (m.storeHalves (ymemAddr i) vs) := by
  induction vs with
  | nil => exact fun hm _ => hm
  | cons v vs ih =>
    intro m i hm hi
    rw [List.length_cons] at hi
    exact ih (i := i + 1)
      (Memory.whole_store16 v hm fun d hd => elementOf_ymem hl (by omega) hd) (by omega)

/-- A run of coefficients that stays inside `RMEM` keeps the elements whole (R47, R149). -/
theorem Memory.whole_storeWords_rmem {cfg : Config} (hl : cfg.Legal) (vs : List Word) :
    ∀ {m : Memory} {k : Nat}, Memory.Whole cfg m → k + vs.length ≤ cfg.ordmax + 1 →
      Memory.Whole cfg (m.storeWords (rmemAddr k) vs) := by
  induction vs with
  | nil => exact fun hm _ => hm
  | cons v vs ih =>
    intro m k hm hk
    rw [List.length_cons] at hk
    exact ih (k := k + 1)
      (Memory.whole_store32 v hm fun d hd => elementOf_rmem hl (by omega) hd) (by omega)

/-- A frame of `n` samples decimates to `n / 2` (R179). -/
@[simp] theorem decimate_length (cfg : Config) (x : ApContext) (n : Nat) (frame : List Int) :
    (decimate cfg x n frame).1.length = n / 2 := by
  simp [decimate, recombine]

/-- What a command leaves in memory: what was there, the output of `DECIM` from the start of `YMEM`, or
the coefficients of `ACORR` or `ACORRV` from the start of `RMEM` (R149, R180). -/
theorem exec_mem_cases {i : Instr} {s t : State} (h : exec i s = .next t) :
    t.mem = s.mem ∨
    (∃ n c vs, i = .decim n c ∧ DecimLegal s n c ∧ t.status = 0 ∧ vs.length = n / 2 ∧
      t.mem = Memory.storeHalves s.mem (ymemAddr 0) vs) ∨
    (∃ n order vs, (i = .acorr n order ∨ i = .acorrv n order) ∧ AcorrLegal s.cfg n order ∧
      t.status = 0 ∧ vs.length = order + 1 ∧ t.mem = Memory.storeWords s.mem (rmemAddr 0) vs) := by
  rcases exec_cases h with ⟨code, rfl, -⟩ | ⟨n, order, hi, hlegal, rfl⟩ |
    ⟨n, order, hi, -, hlegal, rfl⟩ | ⟨n, c, hi, hlegal, rfl⟩ | ⟨c, -, -, rfl⟩ | ⟨-, v, rfl⟩
  · exact .inl rfl
  · exact .inr (.inr ⟨n, order, _, .inl hi, hlegal, rfl, by simp, rfl⟩)
  · exact .inr (.inr ⟨n, order, _, .inr hi, hlegal, rfl, by simp, rfl⟩)
  · exact .inr (.inl ⟨n, c, _, hi, hlegal, rfl, by simp, rfl⟩)
  · exact .inl rfl
  · exact .inl rfl

/-- Every command keeps the memory invariant: its checks keep its results inside their memory
(R141, R171). -/
theorem exec_memoryInv {i : Instr} {s t : State} (hcfg : s.cfg.Legal) (hs : s.MemoryInv)
    (h : exec i s = .next t) : t.MemoryInv := by
  obtain ⟨hwf, hwhole⟩ := memoryInv_iff.1 hs
  obtain ⟨-, -, -, htcfg, -⟩ := exec_keeps h
  rw [memoryInv_iff, htcfg]
  rcases exec_mem_cases h with hm | ⟨n, c, vs, -, hlegal, -, hlen, hm⟩ |
    ⟨n, order, vs, -, hlegal, -, hlen, hm⟩ <;> rw [hm]
  · exact ⟨hwf, hwhole⟩
  · obtain ⟨-, -, -, hn, -⟩ := hlegal
    exact ⟨Memory.wf_storeHalves vs hwf _, Memory.whole_storeHalves_ymem hcfg vs hwhole (by omega)⟩
  · obtain ⟨-, -, -, -, horder⟩ := hlegal
    exact ⟨Memory.wf_storeWords vs hwf _, Memory.whole_storeWords_rmem hcfg vs hwhole (by omega)⟩

theorem writeCmd_memoryInv {s t : State} {w : Word} (hcfg : s.cfg.Legal) (hs : s.MemoryInv)
    (h : s.writeCmd w = .next t) : t.MemoryInv := by
  rcases writeCmd_raise_or_complete h with ⟨code, rfl⟩ | ⟨i, -, hrun, -⟩
  · exact hs
  · exact exec_memoryInv hcfg hs hrun

/-- Settles O58, by the cases of a step: a sample the host writes, and the results of a command. -/
theorem memoryInvariantKept : Obligations.MemoryInvariantKept := by
  intro s t hcfg hs h
  rcases step_cases h with ⟨-, rfl⟩ | ⟨op, rest, -, hop⟩
  · exact hs
  rcases hop with ⟨_, _, _, -, rfl⟩ | ⟨-, rfl⟩ | ⟨w, -, hcmd⟩ | ⟨_, -, rfl⟩ | ⟨_, -, rfl⟩ |
    ⟨v, i, hi, -, rfl⟩ | ⟨_, _, _, -, -, rfl⟩
  · exact hs
  · exact ⟨List.Pairwise.nil, rfl⟩
  · exact writeCmd_memoryInv (s := s.accept rest) hcfg hs hcmd
  · exact hs
  · exact hs
  · obtain ⟨hwf, hwhole⟩ := memoryInv_iff.1 hs
    exact memoryInv_iff.2 ⟨Memory.wf_store16 hwf _ _,
      Memory.whole_store16 _ hwhole fun d hd => elementOf_xmem hi hd⟩
  · exact hs

/-- Settles O53, by what a command leaves in memory: a run of elements changes no byte outside it. -/
theorem whoWritesTheMemories : Obligations.WhoWritesTheMemories := by
  intro i s t a h hne
  rcases exec_mem_cases h with hm | ⟨n, c, vs, hi, -, h0, hlen, hm⟩ |
    ⟨n, order, vs, hi, -, h0, hlen, hm⟩ <;> rw [hm] at hne
  · exact absurd rfl hne
  · refine ⟨h0, .inl ⟨n, c, hi, ?_⟩⟩
    by_contra hout
    refine hne (Memory.find_storeHalves_of_not_mem vs s.mem _ a ?_)
    simp only [ymemAddr] at *
    omega
  · refine ⟨h0, .inr ⟨n, order, hi, ?_⟩⟩
    by_contra hout
    refine hne (Memory.find_storeWords_of_not_mem vs s.mem _ a ?_)
    simp only [rmemAddr] at *
    omega

end Sys2Proof.Machine
end

section
/-! PROOF of O7, O10, O50 and O51 (rules R15, R22, R23, R25, R42, R51): a step moves the script on by one,
and which step changes which register and which context. -/

namespace Sys2Proof.Machine

open Sys2Proof

/-- Settles O7: the step is the write, and the write runs what the word decodes to (R25, R96). -/
theorem stepRunsTheDecodedCommand : Obligations.StepRunsTheDecodedCommand := by
  intro s w rest hp
  rw [step_of_commandWrite hp]
  constructor
  · intro i hi
    rcases State.writeCmd_cases (s.accept rest) w with ⟨j, hj, hexec⟩ | ⟨why, hj, -⟩ <;>
      cases hi.symm.trans hj
    exact hexec
  · intro why hi
    rcases State.writeCmd_cases (s.accept rest) w with ⟨j, hj, -⟩ | ⟨why', hj, hraise⟩ <;>
      cases hi.symm.trans hj
    exact hraise

/-- What no write to `CMD` changes: the host's side, the parameters, the operand registers (R22, R51). -/
theorem writeCmd_keeps {s t : State} {w : Word} (h : s.writeCmd w = .next t) :
    t.pending = s.pending ∧ t.hpc = s.hpc ∧ t.cfg = s.cfg ∧ t.opa = s.opa ∧ t.opb = s.opb := by
  rcases writeCmd_raise_or_complete h with ⟨code, rfl⟩ | ⟨i, -, hrun, -⟩
  · exact ⟨rfl, rfl, rfl, rfl, rfl⟩
  · obtain ⟨hpending, hhpc, -, hcfg, hopa, hopb, -⟩ := exec_keeps hrun
    exact ⟨hpending, hhpc, hcfg, hopa, hopb⟩

/-- Settles O10, by the cases of a step: the host's side moves on before the operation is performed, and
no operation touches it but to answer. -/
theorem stepMovesTheScriptByOne : Obligations.StepMovesTheScriptByOne := by
  constructor
  · intro s t op rest hp h
    rcases step_cases h with ⟨hidle, -⟩ | ⟨op', rest', hp', hop⟩
    · simp [hidle] at hp
    cases hp.symm.trans hp'
    rcases hop with ⟨_, _, _, -, rfl⟩ | ⟨-, rfl⟩ | ⟨w, -, hcmd⟩ | ⟨_, -, rfl⟩ | ⟨_, -, rfl⟩ |
      ⟨_, _, -, -, rfl⟩ | ⟨_, _, _, -, -, rfl⟩
    · exact ⟨rfl, rfl, rfl⟩
    · exact ⟨rfl, rfl, rfl⟩
    · obtain ⟨hpending, hhpc, hcfg, -, -⟩ := writeCmd_keeps hcmd
      exact ⟨hpending, hhpc, hcfg⟩
    all_goals exact ⟨rfl, rfl, rfl⟩
  · intro i s t h
    obtain ⟨hpending, hhpc, hresp, hcfg, -⟩ := exec_keeps h
    exact ⟨hpending, hhpc, hresp, hcfg⟩

/-- What a step that is not reset does to the operand registers: nothing, or the host writes one (R22). -/
theorem step_operands {s t : State} (h : step s = .next t) (hreset : ¬ s.NextIsReset) :
    (t.opa = s.opa ∧ t.opb = s.opb) ∨
    (∃ v rest, s.pending = .write 0x018 4 v :: rest ∧ t.opa = v ∧ t.opb = s.opb) ∨
    (∃ v rest, s.pending = .write 0x01C 4 v :: rest ∧ t.opb = v ∧ t.opa = s.opa) := by
  rcases step_cases h with ⟨-, rfl⟩ | ⟨op, rest, hp, hop⟩
  · exact .inl ⟨rfl, rfl⟩
  rcases hop with ⟨_, _, _, -, rfl⟩ | ⟨rfl, -⟩ | ⟨w, -, hcmd⟩ | ⟨v, rfl, rfl⟩ | ⟨v, rfl, rfl⟩ |
    ⟨_, _, -, -, rfl⟩ | ⟨_, _, _, -, -, rfl⟩
  · exact .inl ⟨rfl, rfl⟩
  · exact absurd ⟨rest, hp⟩ hreset
  · obtain ⟨-, -, -, hopa, hopb⟩ := writeCmd_keeps hcmd
    exact .inl ⟨hopa, hopb⟩
  · exact .inr (.inl ⟨v, rest, hp, rfl, rfl⟩)
  · exact .inr (.inr ⟨v, rest, hp, rfl, rfl⟩)
  · exact .inl ⟨rfl, rfl⟩
  · exact .inl ⟨rfl, rfl⟩

/-- Only a helper writes `RES`, and it completes (R22, R135). -/
theorem exec_res_cases {i : Instr} {s t : State} (h : exec i s = .next t) :
    t.res = s.res ∨ t.status = 0 ∧ 8 ≤ i.opc := by
  rcases exec_cases h with ⟨_, rfl, -⟩ | ⟨_, _, -, -, rfl⟩ | ⟨_, _, -, -, -, rfl⟩ |
    ⟨_, _, -, -, rfl⟩ | ⟨_, -, -, rfl⟩ | ⟨hopc, _, rfl⟩
  case inr.inr.inr.inr.inr => exact .inr ⟨rfl, hopc⟩
  all_goals exact .inl rfl

/-- The words of the five helpers (R95, R98, R104). -/
theorem helperWord_of_decodeWord {w : Word} {i : Instr} (h : decodeWord w = .command i)
    (hopc : 8 ≤ i.opc) :
    w ∈ [0x80000000, 0x90000000, 0xA0000000, 0xB0000000, (0xC0000000 : Word)] := by
  rw [← encode_of_decodeWord h]
  cases i with
  | acorr | decim | apinit | acorrv => simp [Instr.opc] at hopc
  | sadd32 | sadd16 | trunc16 | mulrs16 | clz32 => decide

theorem step_res_cases {s t : State} (h : step s = .next t) (hreset : ¬ s.NextIsReset) :
    t.res = s.res ∨ t.status = 0 ∧ ∃ w, s.NextIsCommandWrite w ∧
      w ∈ [0x80000000, 0x90000000, 0xA0000000, 0xB0000000, (0xC0000000 : Word)] := by
  rcases step_reset_command_or_traffic h with ⟨rest, hp, -⟩ | ⟨w, rest, hp, hcmd⟩ | htraffic
  · exact absurd ⟨rest, hp⟩ hreset
  · rcases writeCmd_raise_or_complete hcmd with ⟨code, rfl⟩ | ⟨i, hi, hrun, -⟩
    · exact .inl rfl
    · rcases exec_res_cases hrun with hres | ⟨h0, hopc⟩
      · exact .inl hres
      · exact .inr ⟨h0, w, ⟨rest, hp⟩, helperWord_of_decodeWord hi hopc⟩
  · exact .inl htraffic.res

/-- A command commutes with an update of the state that its check does not see, and that neither its
effect nor the record of its outcome touches. -/
theorem State.command_commutes {s t : State} {w : Word} {violated : Option ErrorCode}
    {effect : State → State} (update : State → State)
    (hraise : ∀ code, (update s).raise code w = update (s.raise code w))
    (heffect : (effect (update s)).succeed = update (effect s).succeed)
    (h : s.command w violated effect = .next t) :
    (update s).command w violated effect = .next (update t) := by
  rcases State.command_cases h with ⟨code, rfl, rfl⟩ | ⟨rfl, rfl⟩
  · rw [State.command_some, hraise]
  · rw [State.command_none, heffect]

/-- The state with other operand registers. -/
def State.withOperands (s : State) (a b : Word) : State := { s with opa := a, opb := b }

/-- The frame commands and `APINIT` do the same with other operand registers (R22). -/
theorem exec_withOperands {i : Instr} {s t : State} (a b : Word) (hopc : i.opc < 8)
    (h : exec i s = .next t) : exec i (s.withOperands a b) = .next (t.withOperands a b) := by
  cases i with
  | acorr | decim | apinit | acorrv =>
    simp only [exec, execAcorr, execDecim, execApinit, execAcorrv] at h ⊢
    exact State.command_commutes (·.withOperands a b) (fun _ => rfl) rfl h
  | sadd32 | sadd16 | trunc16 | mulrs16 | clz32 => simp [Instr.opc] at hopc

/-- Settles O50, by what a step does to the operand registers and to `RES`. -/
theorem whoWritesTheGeneralRegisters : Obligations.WhoWritesTheGeneralRegisters := by
  constructor
  · intro s t h hreset
    refine ⟨fun hne => ?_, fun hne => ?_, (step_res_cases h hreset).resolve_left⟩
    · rcases step_operands h hreset with ⟨hopa, -⟩ | ⟨v, rest, hp, hopa, -⟩ | ⟨-, -, -, -, hopa⟩
      · exact absurd hopa hne
      · exact ⟨v, rest, hp, hopa⟩
      · exact absurd hopa hne
    · rcases step_operands h hreset with ⟨-, hopb⟩ | ⟨-, -, -, -, hopb⟩ | ⟨v, rest, hp, hopb, -⟩
      · exact absurd hopb hne
      · exact absurd hopb hne
      · exact ⟨v, rest, hp, hopb⟩
  · intro s t i a b hopc h
    exact exec_withOperands a b hopc h

/-- Only `DECIM` and `APINIT` write a context, each its own, and they complete (R42). -/
theorem exec_ctxs_cases {i : Instr} {s t : State} {c : Nat} (hc : c < 32)
    (h : exec i s = .next t) :
    t.ctxs[c] = s.ctxs[c] ∨ t.status = 0 ∧ (i = .apinit c ∨ ∃ n, i = .decim n c) := by
  rcases exec_cases h with ⟨_, rfl, -⟩ | ⟨_, _, -, -, rfl⟩ | ⟨_, _, -, -, -, rfl⟩ |
    ⟨n, c', rfl, -, rfl⟩ | ⟨c', rfl, -, rfl⟩ | ⟨-, _, rfl⟩
  · exact .inl rfl
  · exact .inl rfl
  · exact .inl rfl
  · by_cases hcc : c' = c
    · exact .inr ⟨rfl, .inr ⟨n, by rw [hcc]⟩⟩
    · exact .inl (Vector.getElem_setIfInBounds_ne hc hcc)
  · by_cases hcc : c' = c
    · exact .inr ⟨rfl, .inl (by rw [hcc])⟩
    · exact .inl (Vector.getElem_setIfInBounds_ne hc hcc)
  · exact .inl rfl

/-- Writes to different contexts commute (R42). -/
theorem State.setCtx_comm (s : State) {c d : Nat} (hdc : d ≠ c) (x y : ApContext) :
    (s.setCtx d x).setCtx c y = (s.setCtx c y).setCtx d x := by
  have hctxs : (s.ctxs.setIfInBounds d x).setIfInBounds c y =
      (s.ctxs.setIfInBounds c y).setIfInBounds d x := by
    ext1 i hi
    simp only [Vector.getElem_setIfInBounds]
    by_cases hci : c = i
    · simp [hci, hci ▸ hdc]
    · simp [hci]
  simp only [State.setCtx, hctxs]

/-- Replacing another context leaves this one. -/
theorem State.ctx_setCtx_of_ne (s : State) {c d : Nat} (hdc : d ≠ c) (x : ApContext) :
    (s.setCtx d x).ctx c = s.ctx c := by
  simp only [State.ctx, State.setCtx_ctxs, Vector.getElem?_setIfInBounds_ne hdc]

/-- `DECIM` of one context and a write to another commute (R42). -/
theorem State.storeDecimated_setCtx (s : State) {n c d : Nat} (hdc : d ≠ c) (x : ApContext) :
    (s.setCtx d x).storeDecimated n c = (s.storeDecimated n c).setCtx d x := by
  have hframe : (s.setCtx d x).frame n = s.frame n := rfl
  simp only [State.storeDecimated, State.setCtx_cfg, State.ctx_setCtx_of_ne s hdc, hframe,
    State.setCtx_comm s hdc]
  rfl

/-- `DECIM` checks its own context only (R171). -/
theorem decimViolated_setCtx (s : State) {n c d : Nat} (hdc : d ≠ c) (x : ApContext) :
    decimViolated (s.setCtx d x) n c = decimViolated s n c := by
  simp only [decimViolated, State.setCtx_cfg, State.ctx_setCtx_of_ne s hdc]

theorem exec_decim_setCtx {s t : State} {n c d : Nat} (hdc : d ≠ c) (x : ApContext)
    (h : exec (.decim n c) s = .next t) :
    exec (.decim n c) (s.setCtx d x) = .next (t.setCtx d x) := by
  simp only [exec, execDecim, decimViolated_setCtx s hdc] at h ⊢
  exact State.command_commutes (·.setCtx d x) (fun _ => rfl)
    (congrArg State.succeed (State.storeDecimated_setCtx s hdc x)) h

theorem exec_apinit_setCtx {s t : State} {c d : Nat} (hdc : d ≠ c) (x : ApContext)
    (h : exec (.apinit c) s = .next t) :
    exec (.apinit c) (s.setCtx d x) = .next (t.setCtx d x) := by
  simp only [exec, execApinit] at h ⊢
  exact State.command_commutes (·.setCtx d x) (fun _ => rfl)
    (congrArg State.succeed (State.setCtx_comm s hdc x ApContext.zeroed)) h

/-- Settles O51, by what a step can be and what a command does to a context. -/
theorem whoWritesTheContexts : Obligations.WhoWritesTheContexts := by
  constructor
  · intro s t c hc h hne
    rcases step_reset_command_or_traffic h with ⟨rest, hp, -⟩ | ⟨w, rest, hp, hcmd⟩ | htraffic
    · exact .inl ⟨rest, hp⟩
    · rcases writeCmd_raise_or_complete hcmd with ⟨code, rfl⟩ | ⟨i, hi, hrun, -⟩
      · exact absurd rfl hne
      · obtain ⟨h0, hwriter⟩ := (exec_ctxs_cases hc hrun).resolve_left hne
        refine .inr ⟨h0, w, ⟨rest, hp⟩, ?_⟩
        rcases hwriter with rfl | ⟨n, rfl⟩
        · exact .inl hi
        · exact .inr ⟨n, hi⟩
    · simp only [htraffic.ctxs, ne_eq, not_true_eq_false] at hne
  · intro s t n c d x hdc
    exact ⟨exec_decim_setCtx hdc x, exec_apinit_setCtx hdc x⟩

end Sys2Proof.Machine
end

section
/-! PROOF of O44, O45, O55 and O56 (rules R33 to R36, R52, R240, R243): the read-only registers, and the
state reset leaves. -/

namespace Sys2Proof.Machine

open Sys2Proof

/-- A section coefficient reads as the signed number it is (R11, R36). -/
theorem toInt_pattern32_of_coefLegal {a : Int} (h : Config.CoefLegal a) : (pattern32 a).toInt = a :=
  toInt_pattern32 (by omega) (by omega)

/-- `CONFIG0` loses no bit of its fields (R33). -/
theorem config0Word_toNat {cfg : Config} (h : cfg.Legal) :
    (config0Word cfg).toNat = cfg.lanes * 2 ^ 28 + cfg.ordmax * 2 ^ 16 + cfg.nmax := by
  obtain ⟨⟨-, -, hnmax⟩, ⟨hord, -⟩, -, hlanes, -⟩ := h
  rw [config0Word, BitVec.toNat_ofNat]
  omega

/-- `CONFIG1` loses no bit of its fields (R34). -/
theorem config1Word_toNat {cfg : Config} (h : cfg.Legal) :
    (config1Word cfg).toNat = 1 * 2 ^ 8 + cfg.nctx := by
  obtain ⟨-, -, ⟨-, hnctx⟩, -⟩ := h
  rw [config1Word, BitVec.toNat_ofNat]
  omega

/-- Settles O44: the fields are disjoint and wide enough for legal parameters. -/
theorem constantRegisters : Obligations.ConstantRegisters := by
  intro s hlegal
  have h0 := config0Word_toNat hlegal
  have h1 := config1Word_toNat hlegal
  obtain ⟨⟨-, -, hnmax⟩, ⟨hord, -⟩, ⟨-, hnctx⟩, hlanes, ⟨hu0, hu1, hl0, hl1⟩, -⟩ := hlegal
  refine ⟨⟨_, rfl, ?_, ?_, ?_⟩, ⟨_, rfl, ?_, ?_, ?_⟩,
    ⟨_, rfl, toInt_pattern32_of_coefLegal hu0⟩, ⟨_, rfl, toInt_pattern32_of_coefLegal hu1⟩,
    ⟨_, rfl, toInt_pattern32_of_coefLegal hl0⟩, ⟨_, rfl, toInt_pattern32_of_coefLegal hl1⟩⟩
  all_goals
    simp only [field, h0, h1]
    omega

/-- Bit `c` of `APVALID` (R35). -/
theorem getLsbD_apvalidWord (s : State) (nctx : Nat) {c : Nat} (hc : c < 32) :
    (apvalidWord nctx s.ctxs).getLsbD c = (decide (c < nctx) && (s.ctx c).valid) := by
  simp [apvalidWord, State.ctx, hc]

/-- Settles O45, by the bits of `apvalidWord`. -/
theorem apvalidShowsTheValidBits : Obligations.ApvalidShowsTheValidBits :=
  fun s _ hc => ⟨_, rfl, getLsbD_apvalidWord s s.cfg.nctx hc⟩

/-- Where every context is as reset leaves it, none is initialised (R52). -/
theorem State.ctx_valid_of_replicate {s : State}
    (h : s.ctxs = Vector.replicate 32 ApContext.uninitialised) (c : Nat) :
    (s.ctx c).valid = false := by
  rw [State.ctx, h, Vector.getElem?_replicate]
  split <;> rfl

/-- With no context initialised `APVALID` is 0 (R35). -/
theorem apvalidWord_eq_zero {s : State} (nctx : Nat) (h : ∀ c, (s.ctx c).valid = false) :
    apvalidWord nctx s.ctxs = 0 := by
  apply BitVec.eq_of_getLsbD_eq
  intro c hc
  rw [getLsbD_apvalidWord s nctx hc, h c]
  simp

/-- Settles O55: the step is `resetBlock`, after which no context is valid and no byte is listed. -/
theorem resetState : Obligations.ResetState := by
  intro s rest hp
  have hvalid : ∀ c, ((s.accept rest).resetBlock.ctx c).valid = false :=
    State.ctx_valid_of_replicate rfl
  exact ⟨_, step_of_pending hp, rfl, rfl, rfl, rfl, rfl, rfl, rfl, rfl, hvalid,
    congrArg some (apvalidWord_eq_zero _ hvalid), Memory.find_nil, rfl⟩

/-- Settles O56: nothing is written, nothing has failed, no context is initialised. -/
theorem resetMeetsTheInvariant : Obligations.ResetMeetsTheInvariant := by
  intro cfg hlegal
  refine ⟨hlegal, ⟨List.Pairwise.nil, rfl⟩, ?_, ?_, ?_⟩
  · exact ⟨by simp, by simp, by simp, by simp⟩
  · intro c hc
    simp [ApContext.uninitialised] at hc
  · exact ⟨by simp, by simp⟩

end Sys2Proof.Machine
end

section
/-! PROOF of O46 (rules R37, R43, R45 to R47, R61, R62, R64, R70): a read answers the content of the
location at its offset, and is refused where the port locates nothing that a read can answer. -/

namespace Sys2Proof.Machine

open Sys2Proof

/-- No register depends on the host script (R26 to R36). -/
@[simp] theorem State.readReg_accept (s : State) (rest : List HostOp) (r : Reg) :
    (s.accept rest).readReg r = s.readReg r := by
  cases r <;> rfl

/-- A read of a location with a content is answered with it, and changes nothing (R62). -/
theorem step_read_of_content {s : State} {off n : Nat} {rest : List HostOp} {l : Location}
    {r : PortResponse} (hp : s.pending = .read off n :: rest) (hloc : locate s.cfg off n = some l)
    (hcontent : (s.accept rest).content l = some r) :
    step s = .next ((s.accept rest).respond r) := by
  have hbind : (locate (s.accept rest).cfg off n).bind (s.accept rest).content = some r := by
    rw [State.accept_cfg, hloc, Option.bind_some, hcontent]
  rw [step_of_pending hp, State.perform, State.portRead, hbind]

/-- A read of a register but `CMD` answers the register (R26 to R37). -/
theorem step_read_reg {s : State} {off : Nat} {rest : List HostOp} {w : Word} (r : Reg)
    (hp : s.pending = .read off 4 :: rest) (hr : s.readReg r = some w) (hoff : off = r.offset) :
    step s = .next ((s.accept rest).respond (.data32 w)) := by
  refine step_read_of_content hp (hoff ▸ locate_reg s.cfg r) ?_
  rw [State.content, State.readReg_accept, hr, Option.map_some]

/-- A read of the window of an existing context answers what its cell reads as (R43). -/
theorem step_read_aps {s : State} {off : Nat} {rest : List HostOp} {c i : Nat}
    (hlegal : s.cfg.Legal) (hp : s.pending = .read off 4 :: rest) (hc : c < s.cfg.nctx) (hi : i ≤ 4)
    (hoff : off = apsAddr c i) :
    step s = .next ((s.accept rest).respond (.data32 ((s.accept rest).readAps c i))) :=
  step_read_of_content hp (hoff ▸ locate_aps hlegal hc hi) rfl

/-- An initialised context shows its cells, before and after an operation is accepted (R40, R43). -/
theorem State.readAps_accept_of_valid {s : State} (rest : List HostOp) {c : Nat} (i : Nat)
    (h : (s.ctx c).valid = true) : (s.accept rest).readAps c i = (s.ctx c).cell i :=
  if_pos h

/-- A context that is not initialised shows a free value of the operation (R16, R43). -/
theorem State.readAps_accept_of_not_valid {s : State} (rest : List HostOp) {c : Nat} (i : Nat)
    (h : (s.ctx c).valid = false) :
    (s.accept rest).readAps c i = Config.unspecifiedCell (s.hpc + 1) c i :=
  if_neg (Bool.eq_false_iff.1 h)

/-- A read that no location answers is refused and changes nothing: what the port locates is readable
or the write-only `CMD` (R25, R61, R64). -/
theorem step_read_refused {s : State} {off n : Nat} {rest : List HostOp}
    (hp : s.pending = .read off n :: rest) (hread : ¬ Readable s.cfg off n) :
    step s = .next ((s.accept rest).respond (.busError off)) := by
  rw [step_of_pending hp, State.perform]
  rcases State.portRead_cases (s.accept rest) off n with ⟨l, r, hloc, hcontent, -⟩ | ⟨-, hrefused⟩
  · cases (locate_readable hloc).resolve_left hread
    cases hcontent
  · rw [hrefused]

/-- Settles O46: each clause is the read of one kind of location, at the offset the map gives it. -/
theorem readsAnswerTheReadableLocations : Obligations.ReadsAnswerTheReadableLocations := by
  intro s off n rest hlegal hp s' answers
  obtain ⟨⟨w0, hw0, hfields0⟩, ⟨w1, hw1, hfields1⟩, ⟨wu0, hwu0, hu0⟩, ⟨wu1, hwu1, hu1⟩,
    ⟨wl0, hwl0, hl0⟩, ⟨wl1, hwl1, hl1⟩⟩ := constantRegisters s hlegal
  refine ⟨?registers, ?cells, ?uninitialised, ?xmem, ?ymem, ?rmem, step_read_refused hp⟩
  case registers =>
    rintro rfl
    exact ⟨step_read_reg .status hp rfl, step_read_reg .esticky hp rfl, step_read_reg .ecmd hp rfl,
      step_read_reg .scale hp rfl, step_read_reg .outlen hp rfl, step_read_reg .opa hp rfl,
      step_read_reg .opb hp rfl, step_read_reg .res hp rfl,
      fun h => ⟨w0, step_read_reg .config0 hp hw0 h, hfields0⟩,
      fun h => ⟨w1, step_read_reg .config1 hp hw1 h, hfields1⟩,
      fun h => ⟨_, step_read_reg .apvalid hp rfl h, fun _ => getLsbD_apvalidWord s s.cfg.nctx⟩,
      fun h => ⟨wu0, step_read_reg .apcu0 hp hwu0 h, hu0⟩,
      fun h => ⟨wu1, step_read_reg .apcu1 hp hwu1 h, hu1⟩,
      fun h => ⟨wl0, step_read_reg .apcl0 hp hwl0 h, hl0⟩,
      fun h => ⟨wl1, step_read_reg .apcl1 hp hwl1 h, hl1⟩⟩
  case cells =>
    rintro c rfl hc hvalid
    have hcell (i : Nat) (hi : i ≤ 4) (hoff : off = apsAddr c i) :
        answers (.data32 ((s.ctx c).cell i)) :=
      State.readAps_accept_of_valid rest i hvalid ▸ step_read_aps hlegal hp hc hi hoff
    exact ⟨hcell 0 (by decide), hcell 1 (by decide), hcell 2 (by decide), hcell 3 (by decide),
      hcell 4 (by decide)⟩
  case uninitialised =>
    rintro c i rfl hc hvalid hi hoff
    exact State.readAps_accept_of_not_valid rest i hvalid ▸ step_read_aps hlegal hp hc hi hoff
  case xmem =>
    rintro i rfl hi rfl
    exact ⟨step_read_of_content hp (locate_xmem hlegal hi) rfl, fun b0 b1 h0 h1 =>
      ⟨State.load16_of_find (s := s') h0 h1, State.load16_of_find h0 h1⟩⟩
  case ymem =>
    rintro i rfl hi rfl
    exact ⟨step_read_of_content hp (locate_ymem hi) rfl, fun b0 b1 h0 h1 =>
      ⟨State.load16_of_find (s := s') h0 h1, State.load16_of_find h0 h1⟩⟩
  case rmem =>
    rintro k rfl hk rfl
    exact ⟨step_read_of_content hp (locate_rmem hk) rfl, fun b0 b1 b2 b3 h0 h1 h2 h3 =>
      ⟨State.load32_of_find (s := s') h0 h1 h2 h3, State.load32_of_find h0 h1 h2 h3⟩⟩

end Sys2Proof.Machine
end

section
/-! PROOF of O47 to O49 (rules R31, R37, R45, R61, R63, R64, R66): a write stores one of the writable
locations or is refused, and only a refused access ends in an error response. -/

namespace Sys2Proof.Machine

open Sys2Proof

theorem step_of_write {s : State} {off n : Nat} {v : Word} {rest : List HostOp}
    (hp : s.pending = .write off n v :: rest) : step s = (s.accept rest).portWrite off n v :=
  step_of_pending hp

theorem State.portWrite_opa (s : State) (v : Word) :
    s.portWrite 0x018 4 v = .next { s with opa := v } := by
  have hloc : locate s.cfg 0x018 4 = some (.reg .opa) := locate_reg _ .opa
  rw [State.portWrite, hloc]

theorem State.portWrite_opb (s : State) (v : Word) :
    s.portWrite 0x01C 4 v = .next { s with opb := v } := by
  have hloc : locate s.cfg 0x01C 4 = some (.reg .opb) := locate_reg _ .opb
  rw [State.portWrite, hloc]

theorem State.portWrite_xmem {s : State} (hlegal : s.cfg.Legal) {i : Nat} (hi : i < s.cfg.nmax)
    (v : Word) : s.portWrite (xmemAddr i) 2 v =
      .next { s with mem := Memory.store16 s.mem (xmemAddr i) (v.extractLsb' 0 16) } := by
  rw [State.portWrite, locate_xmem hlegal hi]

/-- The low byte of a stored element is at its offset (R65). -/
theorem Memory.find_store16_low (m : Memory) (a : Nat) (v : Half) :
    Memory.find (m.store16 a v) a = some (v.extractLsb' 0 8) := by
  rw [Memory.find_store16, if_neg (by omega), if_pos rfl]

/-- The high byte of a stored element is after it (R65). -/
theorem Memory.find_store16_high (m : Memory) (a : Nat) (v : Half) :
    Memory.find (m.store16 a v) (a + 1) = some (v.extractLsb' 8 8) := by
  rw [Memory.find_store16, if_pos rfl]

/-- Settles O47, by what the write of each of the three locations stores. -/
theorem writesStoreTheirLocation : Obligations.WritesStoreTheirLocation := by
  intro s off n v rest hlegal hp
  rw [step_of_write hp]
  refine ⟨?opa, ?opb, ?xmem⟩
  case opa => rintro rfl rfl; exact State.portWrite_opa _ v
  case opb => rintro rfl rfl; exact State.portWrite_opb _ v
  case xmem =>
    rintro i rfl hi rfl
    have hlow : (v.extractLsb' 0 16).extractLsb' 0 8 = v.extractLsb' 0 8 := by
      ext j hj; simp
    have hhigh : (v.extractLsb' 0 16).extractLsb' 8 8 = v.extractLsb' 8 8 := by
      ext j hj; simp
    let t : State :=
      { s.accept rest with mem := Memory.store16 s.mem (xmemAddr i) (v.extractLsb' 0 16) }
    have hx : t.xmem i = v.extractLsb' 0 16 := State.load16_store16 t _ _ _ rfl
    refine ⟨t, State.portWrite_xmem (s := s.accept rest) hlegal hi v, hx,
      congrArg BitVec.toInt hx, ?_, ?_, ?_, rfl⟩
    · exact hlow ▸ Memory.find_store16_low _ _ _
    · exact hhigh ▸ Memory.find_store16_high _ _ _
    · exact fun a ha => Memory.find_store16_of_not_mem _ _ _ _ ha

/-- A located register was accessed with four bytes at its offset (R37, R61). -/
theorem eq_offset_of_locate_reg {cfg : Config} {off n : Nat} {r : Reg}
    (h : locate cfg off n = some (.reg r)) : n = 4 ∧ off = r.offset := by
  rcases locate_cases h with ⟨hn, r', hr, hoff⟩ | ⟨-, c, i, hr, -⟩ | ⟨-, k, hr, -⟩ |
    ⟨-, i, hr, -⟩ | ⟨-, i, hr, -⟩ <;> cases hr
  exact ⟨hn, hoff⟩

/-- A located sample was accessed with two bytes at its offset (R45, R61). -/
theorem eq_xmemAddr_of_locate_xmem {cfg : Config} {off n i : Nat}
    (h : locate cfg off n = some (.xmem i)) : n = 2 ∧ i < cfg.nmax ∧ off = xmemAddr i := by
  rcases locate_cases h with ⟨-, r', hr, -⟩ | ⟨-, c, i, hr, -⟩ | ⟨-, k, hr, -⟩ |
    ⟨hn, i, hr, hi, hoff⟩ | ⟨-, i, hr, -⟩ <;> cases hr
  exact ⟨hn, hi, hoff⟩

/-- A write that is no legal write of `CMD`, `OPA`, `OPB` or a sample is refused (R63, R64). -/
theorem State.portWrite_of_not_writable {s : State} {off n : Nat} (v : Word)
    (h : ¬ Writable s.cfg off n) : s.portWrite off n v = .next (s.respond (.busError off)) := by
  have hreg (r : Reg) (hr : r.offset = 0x000 ∨ r.offset = 0x018 ∨ r.offset = 0x01C) :
      locate s.cfg off n ≠ some (.reg r) := by
    intro hloc
    obtain ⟨hn, rfl⟩ := eq_offset_of_locate_reg hloc
    exact h (.inl ⟨hn, hr⟩)
  rcases s.portWrite_cases off n v with ⟨hloc, -⟩ | ⟨hloc, -⟩ | ⟨hloc, -⟩ | ⟨i, hloc, -⟩ | hrefused
  · exact absurd hloc (hreg .cmd (.inl rfl))
  · exact absurd hloc (hreg .opa (.inr (.inl rfl)))
  · exact absurd hloc (hreg .opb (.inr (.inr rfl)))
  · obtain ⟨hn, hi, hoff⟩ := eq_xmemAddr_of_locate_xmem hloc
    exact absurd (.inr ⟨hn, i, hi, hoff⟩) h
  · exact hrefused

/-- Settles O48: the writable locations are all that a write can reach. -/
theorem otherWritesAreRefused : Obligations.OtherWritesAreRefused := by
  intro s off n v rest _ hp hwrite
  rw [step_of_write hp]
  exact State.portWrite_of_not_writable v hwrite

/-- A command does not answer the host; the write that started it does (R25). -/
theorem writeCmd_resp {s t : State} {w : Word} (h : s.writeCmd w = .next t) : t.resp = s.resp := by
  rcases writeCmd_raise_or_complete h with ⟨code, rfl⟩ | ⟨i, -, hrun, -⟩
  · rfl
  · obtain ⟨-, -, hresp, -⟩ := exec_keeps hrun
    exact hresp

/-- A read that ends in an error response was refused: no content is one (R62, R64). -/
theorem portRead_of_busError {s : State} {off off' n : Nat}
    (h : (s.portRead off n).resp = .busError off') :
    off' = off ∧ s.portRead off n = s.respond (.busError off) := by
  rcases s.portRead_cases off n with ⟨l, r, -, hcontent, hread⟩ | ⟨-, hread⟩ <;> rw [hread] at h
  · cases h
    exact absurd hcontent (s.content_ne_busError l off')
  · cases h
    exact ⟨rfl, hread⟩

/-- A write that ends in an error response was refused: one that stores or runs a command leaves the
acknowledgement (R63, R64). -/
theorem portWrite_of_busError {s t : State} {off off' n : Nat} {v : Word} (hack : s.resp = .ack)
    (h : s.portWrite off n v = .next t) (herr : t.resp = .busError off') :
    off' = off ∧ t = s.respond (.busError off) := by
  have hkept : t.resp ≠ s.resp := by simp [hack, herr]
  rcases s.portWrite_cases off n v with ⟨-, hw⟩ | ⟨-, hw⟩ | ⟨-, hw⟩ | ⟨i, -, hw⟩ | hw <;>
    rw [hw] at h
  · exact absurd (writeCmd_resp h) hkept
  · cases h; exact absurd rfl hkept
  · cases h; exact absurd rfl hkept
  · cases h; exact absurd rfl hkept
  · cases h; cases herr; exact ⟨rfl, rfl⟩

/-- Settles O49, by the kinds of operation: an error response is that of a refused read or write. -/
theorem busErrorChangesNothing : Obligations.BusErrorChangesNothing := by
  intro s t op rest off hp h herr
  rw [step_of_pending hp] at h
  cases op with
  | read off' n =>
    cases h
    obtain ⟨rfl, hread⟩ := portRead_of_busError herr
    exact ⟨.inl ⟨n, rfl⟩, hread⟩
  | write off' n v =>
    obtain ⟨rfl, hwrite⟩ := portWrite_of_busError rfl h herr
    exact ⟨.inr ⟨n, v, rfl⟩, hwrite⟩
  | reset => cases h; cases herr

end Sys2Proof.Machine
end

section
/-! PROOF of O1 to O6 (rules R92 to R100): a word lies in the row of the opcode map that its mask and
match select, exactly when it decodes to the command of that row; and the operands read from its fields are
the ones the command was encoded from. -/

namespace Sys2Proof

open Machine

/-- The must-be-zero fields in the row of a command are zero in `w` (R93 to R95, R100). -/
def Instr.ZeroFields (w : Word) : Instr → Prop
  | .acorr _ _ | .acorrv _ _ => True
  | .decim _ _ => field w 27 24 = 0
  | .apinit _ => field w 27 24 = 0 ∧ field w 15 0 = 0
  | .sadd32 | .sadd16 | .trunc16 | .mulrs16 | .clz32 => field w 27 0 = 0

/-- The word `w` lies in the row of the opcode map that the command `i` belongs to (R96, R98). -/
def Instr.InRow (w : Word) (i : Instr) : Prop := field w 31 28 = i.opc ∧ i.ZeroFields w

/-- The command of the same row whose operands are the fields of `w` (R92 to R95, R97). -/
def Instr.withFieldsOf (w : Word) : Instr → Instr
  | .acorr _ _ => .acorr (field w 15 0) (field w 27 16)
  | .decim _ _ => .decim (field w 15 0) (field w 23 16)
  | .apinit _ => .apinit (field w 23 16)
  | .acorrv _ _ => .acorrv (field w 15 0) (field w 27 16)
  | .sadd32 => .sadd32
  | .sadd16 => .sadd16
  | .trunc16 => .trunc16
  | .mulrs16 => .mulrs16
  | .clz32 => .clz32

@[simp] theorem Instr.opc_withFieldsOf (w : Word) (i : Instr) : (i.withFieldsOf w).opc = i.opc := by
  cases i <;> rfl

/-! ### The decoder, row by row -/

/-- A word in the row of a command decodes to the command of that row with the word's operands (R96). -/
theorem decodeWord_of_inRow {w : Word} {i : Instr} (h : i.InRow w) :
    decodeWord w = .command (i.withFieldsOf w) := by
  obtain ⟨hopc, hzero⟩ := h
  cases i with
  | acorr | acorrv => simp only [decodeWord, hopc, Instr.opc, Instr.withFieldsOf]
  | decim =>
    simp only [decodeWord, hopc, Instr.opc]
    exact if_pos hzero
  | apinit =>
    obtain ⟨hzero4, hzero16⟩ := hzero
    simp only [decodeWord, hopc, Instr.opc]
    exact (if_pos hzero4).trans (if_pos hzero16)
  | sadd32 | sadd16 | trunc16 | mulrs16 | clz32 =>
    simp only [decodeWord, hopc, Instr.opc]
    exact if_pos hzero

/-- A word that decodes lies in the row of its command, whose operands are its fields (R96, R97). -/
theorem inRow_of_decodeWord {w : Word} {i : Instr} (h : decodeWord w = .command i) :
    i.InRow w ∧ i.withFieldsOf w = i := by
  unfold decodeWord at h
  split at h
  case h_1 hopc => cases h; exact ⟨⟨hopc, trivial⟩, rfl⟩
  case h_2 hopc =>
    obtain ⟨rfl, hzero⟩ := decodeD_eq_command h
    exact ⟨⟨hopc, hzero⟩, rfl⟩
  case h_3 hopc =>
    obtain ⟨rfl, hzero⟩ := decodeI_eq_command h
    exact ⟨⟨hopc, hzero⟩, rfl⟩
  case h_4 hopc => cases h; exact ⟨⟨hopc, trivial⟩, rfl⟩
  case h_10 => cases h
  all_goals
    obtain ⟨rfl, hzero⟩ := decodeH_eq_command h
    exact ⟨⟨‹_›, hzero⟩, rfl⟩

/-! ### O1: the fields of an encoded command -/

/-- The family `OpcodeRow`, for every command. -/
theorem opcodeRow (i : Instr) : Laws.OpcodeRow.Statement i := by
  cases i with
  | acorr n order => exact Laws.OpcodeRow.acorr n order
  | decim n ctx => exact Laws.OpcodeRow.decim n ctx
  | apinit ctx => exact Laws.OpcodeRow.apinit ctx
  | acorrv n order => exact Laws.OpcodeRow.acorrv n order
  | sadd32 => exact Laws.OpcodeRow.sadd32
  | sadd16 => exact Laws.OpcodeRow.sadd16
  | trunc16 => exact Laws.OpcodeRow.trunc16
  | mulrs16 => exact Laws.OpcodeRow.mulrs16
  | clz32 => exact Laws.OpcodeRow.clz32

/-- A field is below the power of two of its width (R97). -/
theorem field_lt (w : Word) (hi lo : Nat) : field w hi lo < 2 ^ (hi - lo + 1) :=
  Nat.mod_lt _ (by positivity)

/-- The operand fields of a word put together from an opcode, 12 bits and 16 bits (R92). -/
theorem fields_of_toNat {w : Word} {opc bits x n : Nat} (hw : w.toNat = opc * 2 ^ 28 + bits)
    (hbits : bits = x * 2 ^ 16 + n) (hx : x < 2 ^ 12) (hn : n < 2 ^ 16) :
    field w 27 16 = x ∧ field w 15 0 = n := by
  simp only [field, hw]
  omega

/-- `CTX` of formats D and I leaves the must-be-zero bits above it zero (R93, R94). -/
theorem ctxFields_of_field_27_16 {w : Word} {ctx : Nat} (h : field w 27 16 = ctx)
    (hctx : ctx < 256) : field w 27 24 = 0 ∧ field w 23 16 = ctx := by
  have := field_27_16 w
  have := field_lt w 23 16
  omega

theorem field_27_0_of_toNat {w : Word} {opc : Nat} (hw : w.toNat = opc * 2 ^ 28 + 0) :
    field w 27 0 = 0 := by
  simp only [field, hw]
  omega

/-- The word of a command lies in its row, and its fields are the command's operands (R92 to R95). -/
theorem encode_inRow {i : Instr} (h : i.wellFormed = true) :
    i.InRow (encode i) ∧ i.withFieldsOf (encode i) = i := by
  obtain ⟨hw, hopc⟩ := opcodeRow i h
  cases i with
  | acorr n order | acorrv n order =>
    simp only [Instr.wellFormed, Bool.and_eq_true, decide_eq_true_eq] at h
    obtain ⟨hn, horder⟩ := h
    obtain ⟨horder, hn⟩ := fields_of_toNat hw rfl horder hn
    exact ⟨⟨hopc, trivial⟩, by rw [Instr.withFieldsOf, horder, hn]⟩
  | decim n ctx =>
    simp only [Instr.wellFormed, Bool.and_eq_true, decide_eq_true_eq] at h
    obtain ⟨hn, hctx⟩ := h
    obtain ⟨hx, hn⟩ := fields_of_toNat hw rfl (by omega) hn
    obtain ⟨hzero, hctx⟩ := ctxFields_of_field_27_16 hx hctx
    exact ⟨⟨hopc, hzero⟩, by rw [Instr.withFieldsOf, hctx, hn]⟩
  | apinit ctx =>
    simp only [Instr.wellFormed, decide_eq_true_eq] at h
    obtain ⟨hx, hn⟩ := fields_of_toNat hw (Nat.add_zero _).symm (by omega) (by omega)
    obtain ⟨hzero, hctx⟩ := ctxFields_of_field_27_16 hx h
    exact ⟨⟨hopc, hzero, hn⟩, by rw [Instr.withFieldsOf, hctx]⟩
  | sadd32 | sadd16 | trunc16 | mulrs16 | clz32 => exact ⟨⟨hopc, field_27_0_of_toNat hw⟩, rfl⟩

/-- Settles O1: the word lies in the command's row, and the decoder reads the operands back. -/
theorem decodeEncodeAgree : Obligations.DecodeEncodeAgree := by
  intro i h
  obtain ⟨hrow, hfields⟩ := encode_inRow h
  rw [decodeWord_of_inRow hrow, hfields]

/-! ### O2: operands read from a word -/

/-- Operands read from a word fit their bits (R97). -/
theorem wellFormed_withFieldsOf (w : Word) (i : Instr) : (i.withFieldsOf w).wellFormed = true := by
  have hn : field w 15 0 < 65536 := field_lt w 15 0
  have horder : field w 27 16 < 4096 := field_lt w 27 16
  have hctx : field w 23 16 < 256 := field_lt w 23 16
  cases i with
  | acorr | acorrv => simp [Instr.withFieldsOf, Instr.wellFormed, hn, horder]
  | decim | apinit => simp [Instr.withFieldsOf, Instr.wellFormed, hn, hctx]
  | sadd32 | sadd16 | trunc16 | mulrs16 | clz32 => rfl

/-- Settles O2: the operands are fields of the word, and a decoded command determines its word. -/
theorem encodeDecodeAgree : Obligations.EncodeDecodeAgree := by
  intro w i h
  obtain ⟨-, hfields⟩ := inRow_of_decodeWord h
  exact ⟨hfields ▸ wellFormed_withFieldsOf w i, encode_of_decodeWord h⟩

/-! ### O3: mask and match -/

/-- Under the mask of `w[hi:lo]` a word keeps that field in its place and nothing else. -/
theorem toNat_and_fieldMask (w : Word) {m : Word} (hi lo : Nat)
    (hm : m.toNat = (2 ^ (hi - lo + 1) - 1) * 2 ^ lo) :
    (w &&& m).toNat = field w hi lo * 2 ^ lo := by
  rw [BitVec.toNat_and, hm, field, ← Nat.and_two_pow_sub_one_eq_mod]
  refine Nat.eq_of_testBit_eq fun k => ?_
  by_cases hk : lo ≤ k <;>
    simp [Nat.testBit_mul_two_pow, Nat.testBit_div_two_pow, hk, Bool.and_comm]

/-- The mask of format I keeps the top byte, opcode and must-be-zero bits, and the low half (R94). -/
theorem toNat_and_maskI (w : Word) :
    (w &&& 0xFF00FFFF).toNat = field w 31 24 * 2 ^ 24 + field w 15 0 := by
  have hhigh : (w &&& 0xFF000000).toNat = field w 31 24 * 2 ^ 24 := toNat_and_fieldMask w 31 24 rfl
  have hlow : (w &&& 0x0000FFFF).toNat = field w 15 0 := by
    simpa using toNat_and_fieldMask (m := 0x0000FFFF) w 15 0 rfl
  have hlt : field w 15 0 < 2 ^ 24 := (field_lt w 15 0).trans (by norm_num)
  rw [show (0xFF00FFFF : Word) = 0xFF000000 ||| 0x0000FFFF by rfl, BitVec.and_or_distrib_left,
    BitVec.toNat_or, hhigh, hlow, mul_comm, Nat.two_pow_add_eq_or_of_lt hlt]

/-- The mask of format D covers the opcode and the must-be-zero bits below it (R93). -/
theorem field_31_24 (w : Word) : field w 31 24 = field w 31 28 * 2 ^ 4 + field w 27 24 := by
  norm_num [field]
  omega

/-- The mask of format H covers the whole word (R95). -/
theorem field_31_0 (w : Word) : field w 31 0 = field w 31 28 * 2 ^ 28 + field w 27 0 := by
  norm_num [field]
  omega

/-- Column `match` holds the opcode and zeros (R98). -/
theorem Instr.toNat_matchBits (i : Instr) : i.matchBits.toNat = i.opc * 2 ^ 28 := by
  cases i <;> rw [Instr.matchBits, Instr.opc] <;> rfl

/-- Mask and match of a row select the words in that row (R98). -/
theorem and_maskBits_eq_iff (w : Word) (i : Instr) :
    w &&& i.maskBits = i.matchBits ↔ i.InRow w := by
  rw [← BitVec.toNat_inj, Instr.toNat_matchBits, Instr.InRow]
  have hzero4 := field_lt w 27 24
  have hzero16 := field_lt w 15 0
  have hzero28 := field_lt w 27 0
  cases i with
  | acorr | acorrv =>
    rw [toNat_and_fieldMask w 31 28 rfl]
    simp only [Instr.ZeroFields, and_true]
    omega
  | decim =>
    rw [toNat_and_fieldMask w 31 24 rfl, field_31_24]
    simp only [Instr.ZeroFields]
    omega
  | apinit =>
    rw [Instr.maskBits, toNat_and_maskI, field_31_24]
    simp only [Instr.ZeroFields]
    omega
  | sadd32 | sadd16 | trunc16 | mulrs16 | clz32 =>
    rw [toNat_and_fieldMask w 31 0 rfl, field_31_0]
    simp only [Instr.ZeroFields]
    omega

/-- Settles O3: mask and match select the row in which the word decodes (R98). -/
theorem opcodeMapSelectsTheCommand : Obligations.OpcodeMapSelectsTheCommand := by
  refine ⟨fun w i h => (and_maskBits_eq_iff w i).2 (inRow_of_decodeWord h).1, fun w i h => ?_⟩
  exact ⟨_, decodeWord_of_inRow ((and_maskBits_eq_iff w i).1 h), Instr.opc_withFieldsOf w i⟩

/-! ### O4 and O5: illegal words -/

/-- A word in no row of the opcode map raises `E_ILLEGAL`, and that is all (R96, R216). -/
theorem writeCmd_of_not_inRow {w : Word} (s : State) (h : ∀ i : Instr, ¬ i.InRow w) :
    s.writeCmd w = .next { s with status := 1, esticky := s.esticky ||| 2, ecmd := w } := by
  rcases State.writeCmd_cases s w with ⟨i, hi, -⟩ | ⟨why, -, hraise⟩
  · exact absurd (inRow_of_decodeWord hi).1 (h i)
  · exact hraise

/-- The opcodes of the map are the nine that are not reserved (R98, R99). -/
theorem Instr.opc_not_reserved (i : Instr) : i.opc ∉ [0x0, 0x5, 0x6, 0x7, 0xD, 0xE, 0xF] := by
  cases i <;> simp [Instr.opc]

/-- Settles O4: a reserved opcode is that of no row. -/
theorem reservedOpcodesRaiseIllegal : Obligations.ReservedOpcodesRaiseIllegal := by
  refine ⟨fun s w h => writeCmd_of_not_inRow s fun i ⟨hopc, _⟩ => ?_, by decide, by decide⟩
  exact i.opc_not_reserved (hopc ▸ h)

/-- In each row the must-be-zero fields of its format are zero (R93 to R95). -/
theorem Instr.InRow.zero {w : Word} {i : Instr} (h : i.InRow w) :
    (i.opc ∈ [0x2, 0x3] → field w 27 24 = 0) ∧ (i.opc = 0x3 → field w 15 0 = 0) ∧
      (i.opc ∈ [0x8, 0x9, 0xA, 0xB, 0xC] → field w 27 0 = 0) := by
  obtain ⟨-, hzero⟩ := h
  cases i with
  | acorr | acorrv => simp [Instr.opc]
  | decim => exact ⟨fun _ => hzero, by simp [Instr.opc], by simp [Instr.opc]⟩
  | apinit =>
    obtain ⟨hzero4, hzero16⟩ := hzero
    exact ⟨fun _ => hzero4, fun _ => hzero16, by simp [Instr.opc]⟩
  | sadd32 | sadd16 | trunc16 | mulrs16 | clz32 =>
    exact ⟨by simp [Instr.opc], by simp [Instr.opc], fun _ => hzero⟩

/-- Settles O5: in a row of formats D, I and H the must-be-zero fields are zero. -/
theorem mustBeZeroFieldsAreChecked : Obligations.MustBeZeroFieldsAreChecked := by
  refine fun s w h => writeCmd_of_not_inRow s fun i hrow => ?_
  obtain ⟨hzero4, hzero16, hzero28⟩ := hrow.zero
  obtain ⟨hopcode, -⟩ := hrow
  rw [hopcode] at h
  rcases h with ⟨hopc, hne⟩ | ⟨hopc, hne⟩ | ⟨hopc, hne⟩
  · exact hne (hzero4 hopc)
  · exact hne (hzero16 hopc)
  · exact hne (hzero28 hopc)

/-- Settles O6, by running the decoder on the eight words. -/
theorem writtenOutWordsDecode : Obligations.WrittenOutWordsDecode := by
  unfold Obligations.WrittenOutWordsDecode
  decide

end Sys2Proof
end

section
/-! PROOF of O11 to O18 (rules R120 to R135): the fixed-point primitives as clamp, residue, floor and bit
length; then each helper command, whose `RES` holds the value of its primitive and whose word has no bit
below the opcode. -/

namespace Sys2Proof.Machine

open Sys2Proof

/-! ### Saturation and truncation (R121 to R125) -/

theorem sat32_eq_clamp (v : Int) : sat32 v = max (-2 ^ 31) (min (2 ^ 31 - 1) v) := by
  unfold sat32
  split
  · omega
  · split <;> omega

theorem sat16_eq_clamp (v : Int) : sat16 v = max (-32768) (min 32767 v) := by
  unfold sat16
  split
  · omega
  · split <;> omega

/-- Settles O11: the sum is clamped, and commutes; the two bracketings are evaluated. -/
theorem saturatingAdd32 : Obligations.SaturatingAdd32 := by
  refine ⟨fun a b => sat32_eq_clamp (a + b), fun a b => ?_, by decide, by decide⟩
  rw [satAdd32, satAdd32, Int.add_comm]

/-- `trunc16` is the balanced residue modulo `2^16` (R125). -/
theorem trunc16_eq_bmod (v : Int) : trunc16 v = v.bmod (2 ^ 16) := BitVec.toInt_ofInt ..

/-- Settles O12: the balanced residue is the only congruent value in its range. -/
theorem truncationWraps : Obligations.TruncationWraps := by
  refine ⟨fun v t => ?_, by decide, by decide⟩
  rw [trunc16_eq_bmod, Int.bmod_eq_iff (by norm_num)]
  omega

/-- Truncating a register reads its low half as a signed number (R132). -/
theorem trunc16_signed32 (r : Word) : trunc16 (signed32 r) = signed16 r := by
  rw [trunc16_eq_bmod, signed32, signed16, BitVec.toInt_eq_toNat_bmod,
    Int.bmod_bmod_of_dvd (by norm_num), ← BitVec.setWidth_eq_extractLsb' (by norm_num),
    BitVec.toInt_setWidth]

/-- The pattern of a signed low half: that half below 16 copies of its sign bit (R132). -/
theorem pattern32_signed16 (r : Word) :
    pattern32 (signed16 r) =
      (if r.getLsbD 15 then 0xFFFF else 0x0000 : Half) ++ r.extractLsb' 0 16 := by
  have hmsb : (r.extractLsb' 0 16).msb = r.getLsbD 15 := by
    simp [BitVec.msb_eq_getLsbD_last]
  rw [← hmsb]
  exact BitVec.signExtend_eq_append_of_le (x := r.extractLsb' 0 16) (by norm_num)

/-! ### The product shifted right by 16 (R126) -/

/-- `mulrs16` is the floor of the exact product divided by `2^16` (R120, R126). -/
theorem mulrs16_floor (s c : Int) :
    mulrs16 s c * 65536 ≤ s * c ∧ s * c < (mulrs16 s c + 1) * 65536 := by
  rw [mulrs16, asr_16]
  omega

/-- The product of two `int16` is at most `2^30` in size, so its floor is at most `2^14` (R126). -/
theorem mulrs16_range {s c : Int} (hs : -32768 ≤ s ∧ s ≤ 32767) (hc : -32768 ≤ c ∧ c ≤ 32767) :
    -16384 ≤ mulrs16 s c ∧ mulrs16 s c ≤ 16384 := by
  have hprod : |s * c| ≤ 2 ^ 15 * 2 ^ 15 := by
    rw [abs_mul]
    have hs' : |s| ≤ 2 ^ 15 := abs_le.2 (by omega)
    have hc' : |c| ≤ 2 ^ 15 := abs_le.2 (by omega)
    gcongr
  obtain ⟨hlow, hhigh⟩ := abs_le.1 hprod
  rw [mulrs16, asr_16]
  omega

/-! ### Bit length, leading zeros and scale (R127, R128) -/

theorem lt_bitLength_iff {u k : Nat} : k < bitLength u ↔ 2 ^ k ≤ u := by
  rw [← not_le, bitLength_le_iff, not_lt]

/-- Shifting right by `k` takes `k` off the bit length (R127). -/
theorem bitLength_div_two_pow (u k : Nat) : bitLength (u / 2 ^ k) = bitLength u - k := by
  refine eq_of_forall_ge_iff fun m => ?_
  rw [bitLength_le_iff, Nat.div_lt_iff_lt_mul (by positivity), ← pow_add, ← bitLength_le_iff,
    Nat.sub_le_iff_le_add]

theorem bitLength_eq_zero {u : Nat} : bitLength u = 0 ↔ u = 0 := by
  rw [← Nat.le_zero, bitLength_le_iff]
  omega

/-- The leading zeros and the bits of a `uint32` make up its 32 bits (R127). -/
theorem clz32_add_bitLength {u : Nat} (h : u < 2 ^ 32) : clz32 u + bitLength u = 32 :=
  Nat.sub_add_cancel (bitLength_le_iff.2 h)

/-- The scale is the bit length of the energy shifted right by 31 (R128). -/
theorem scaleOf_eq_bitLength {p : Int} (h0 : 0 ≤ p) (h : p < 2 ^ 63) :
    scaleOf p = bitLength (p / 2 ^ 31).toNat := by
  have ht : zext32 (asr p 31) = (p / 2 ^ 31).toNat := by
    rw [zext32, asr, BitVec.toNat_ofInt]
    omega
  have hclz := clz32_add_bitLength (u := (p / 2 ^ 31).toNat) (by omega)
  simp only [scaleOf, ht]
  split
  next hzero => exact (bitLength_eq_zero.2 hzero).symm
  next => omega

/-- Settles O13: the energy's bit length less 31, whose two bounds are those of a bit length. -/
theorem scaleIsTheExcessBitLength : Obligations.ScaleIsTheExcessBitLength := by
  intro p h0 h
  lift p to Nat using h0
  have hshift := scaleOf_eq_bitLength (Int.natCast_nonneg p) h
  have hexcess : scaleOf p = bitLength p - 31 := by
    rw [hshift, ← bitLength_div_two_pow, show (p / 2 ^ 31 : Int).toNat = p / 2 ^ 31 by omega]
  refine ⟨by rw [Nat.zero_max, hexcess, Int.toNat_natCast], hshift, ?_, fun hpos => ?_⟩
  · have : p < 2 ^ (31 + scaleOf p) := bitLength_le_iff.1 (by omega)
    exact_mod_cast this
  · have : 2 ^ (30 + scaleOf p) ≤ p := lt_bitLength_iff.1 (by omega)
    exact_mod_cast this

/-! ### The helper commands (R130 to R135) -/

/-- A word with the opcode of a helper and another bit set raises `E_ILLEGAL` (R95, R100). -/
theorem writeCmd_helper_nonZero {opc : Nat} (hopc : opc ∈ [0x8, 0x9, 0xA, 0xB, 0xC]) (s : State)
    (w : Word) (hw : field w 31 28 = opc) (hne : field w 27 0 ≠ 0) :
    s.writeCmd w = .next (s.raise .illegal w) :=
  mustBeZeroFieldsAreChecked s w (.inr (.inr ⟨hw ▸ hopc, hne⟩))

/-- Settles O14: the clamped sum fits `RES`. -/
theorem sadd32Result : Obligations.Sadd32Result := by
  refine ⟨by decide, fun s => ⟨_, s.helper_eq .sadd32 _, ?_, rfl⟩,
    writeCmd_helper_nonZero (by decide)⟩
  obtain ⟨hlow, hhigh⟩ := sat32_range (signed32 s.opa + signed32 s.opb)
  exact (toInt_pattern32 hlow hhigh).trans (sat32_eq_clamp _)

/-- Settles O15: the clamped sum of the low halves fits `RES`. -/
theorem sadd16Result : Obligations.Sadd16Result := by
  refine ⟨by decide, fun s => ⟨_, s.helper_eq .sadd16 _, ?_, rfl⟩,
    writeCmd_helper_nonZero (by decide)⟩
  obtain ⟨hlow, hhigh⟩ := sat16_range (signed16 s.opa + signed16 s.opb)
  exact (toInt_pattern32 (v := sat16 _) (by omega) (by omega)).trans (sat16_eq_clamp _)

/-- Settles O16: `RES` is the pattern of the signed low half of `OPA`. -/
theorem trunc16Result : Obligations.Trunc16Result := by
  refine ⟨by decide, fun s => ⟨_, s.helper_eq .trunc16 _, ?_, ?_, rfl⟩,
    writeCmd_helper_nonZero (by decide)⟩
  all_goals rw [State.succeed_res, State.setRes_res, trunc16_signed32, pattern32_signed16]
  · exact BitVec.extractLsb'_append_eq_right
  · exact BitVec.extractLsb'_append_eq_left

/-- Settles O17: the floor fits `RES`; the extremes and the examples are evaluated. -/
theorem mulrs16Result : Obligations.Mulrs16Result := by
  refine ⟨by decide, fun s => ⟨_, s.helper_eq .mulrs16 _, ?_⟩, by decide, by decide, by decide,
    by decide, by decide, by decide, writeCmd_helper_nonZero (by decide)⟩
  obtain ⟨hlow, hhigh⟩ := mulrs16_range (signed16_range s.opa) (signed16_range s.opb)
  rw [State.succeed_res, State.setRes_res, toInt_pattern32 (by omega) (by omega)]
  obtain ⟨hfloor, hnext⟩ := mulrs16_floor (signed16 s.opa) (signed16 s.opb)
  exact ⟨hfloor, hnext, hlow, hhigh, rfl⟩

/-- Settles O18: leading zeros and bit length make 32, and the bit length brackets `OPA`. -/
theorem clz32Result : Obligations.Clz32Result := by
  refine ⟨by decide, fun s => ⟨_, s.helper_eq .clz32 _, ?_⟩,
    writeCmd_helper_nonZero (by decide)⟩
  have hsum := clz32_add_bitLength s.opa.isLt
  have hres : (s.setRes (clz32 s.opa.toNat)).succeed.res.toNat = clz32 s.opa.toNat := by
    rw [State.succeed_res, State.setRes_res, pattern32, BitVec.toNat_ofInt]
    omega
  have hzero : s.opa = 0 ↔ bitLength s.opa.toNat = 0 := by
    rw [bitLength_eq_zero, ← BitVec.toNat_inj]
    rfl
  simp only [unsigned32, hres, ne_eq, hzero]
  refine ⟨by omega, bitLength_le_iff.1 (by omega), by omega, fun hpos => ⟨by omega, ?_⟩, rfl⟩
  exact lt_bitLength_iff.1 (by omega)

end Sys2Proof.Machine
end

section
/-! PROOF of O21 and O23 to O25 (rules R142 to R148, R151, R152): the group-wise sum is the lag sum,
every lag sum is bounded by the energy of the frame, and the scale of the energy is the least that makes
every coefficient fit `int32`. -/

namespace Sys2Proof.Machine

open Sys2Proof

/-! ### The lag sums and the energy (R142, R143, R146) -/

/-- The energy of a frame is its lag sum at lag 0 (R142). -/
theorem lagSum_zero_eq_sum (x : Nat → Int) (n : Nat) :
    lagSum x n 0 = ∑ j ∈ Finset.range n, x j * x j := lagSum_eq_sum x n 0

/-- Settles O21: group-wise is scalar order, and scalar order is the sum. -/
theorem groupwiseSumIsTheLagSum : Obligations.GroupwiseSumIsTheLagSum := by
  intro lanes x n k
  rw [groupedLagSum_eq_lagSum, lagSum_eq_sum]

/-- One term of a lag is the product of two signed 16-bit values (R143). -/
theorem abs_sample_mul_sample_le (s : State) (i j : Nat) :
    |s.sample i * s.sample j| ≤ 2 ^ 30 := by
  have habs (i : Nat) : |s.sample i| ≤ 2 ^ 15 := by
    obtain ⟨hlow, hhigh⟩ := sample_range s i
    exact abs_le.2 (by omega)
  calc |s.sample i * s.sample j| = |s.sample i| * |s.sample j| := abs_mul _ _
    _ ≤ 2 ^ 15 * 2 ^ 15 := by gcongr <;> exact habs _
    _ = 2 ^ 30 := by norm_num

/-- A sum of `m` terms of a lag, whichever part of it they are (R146). -/
theorem abs_partialLagSum_le (s : State) (k m : Nat) :
    |∑ j ∈ Finset.range m, s.sample j * s.sample (j + k)| ≤ m * 2 ^ 30 :=
  calc |∑ j ∈ Finset.range m, s.sample j * s.sample (j + k)|
      ≤ ∑ j ∈ Finset.range m, |s.sample j * s.sample (j + k)| := Finset.abs_sum_le_sum_abs _ _
    _ ≤ ∑ _j ∈ Finset.range m, 2 ^ 30 :=
        Finset.sum_le_sum fun j _ => abs_sample_mul_sample_le s j (j + k)
    _ = m * 2 ^ 30 := by simp

/-- Settles O23: at most `n` terms of at most `2^30` each, and `n` is at most `NMAX`, at most `2^15`. -/
theorem lagSumsFitTheAccumulator : Obligations.LagSumsFitTheAccumulator := by
  intro s n k m hlegal hn hm
  obtain ⟨⟨-, -, hnmax⟩, -⟩ := hlegal
  refine ⟨(abs_partialLagSum_le s k m).trans ?_, by omega, by omega⟩
  have : m ≤ n := hm.trans (Nat.sub_le n k)
  gcongr

/-- The part of a sum of squares that a lag moves into the frame is part of the energy (R148). -/
theorem sum_shifted_squares_le (x : Nat → Int) (n k : Nat) :
    ∑ j ∈ Finset.range (n - k), x (j + k) ^ 2 ≤ ∑ j ∈ Finset.range n, x j ^ 2 := by
  rw [Finset.range_eq_Ico, Finset.sum_Ico_add' (fun j => x j ^ 2)]
  refine Finset.sum_le_sum_of_subset_of_nonneg (fun j hj => ?_) fun j _ _ => sq_nonneg _
  simp only [Finset.mem_Ico, Finset.mem_range] at hj ⊢
  omega

/-- Every lag sum is bounded by the energy: `2 |a b| ≤ a ^ 2 + b ^ 2`, term by term (R148). -/
theorem abs_lagSum_le_energy (x : Nat → Int) (n k : Nat) : |lagSum x n k| ≤ lagSum x n 0 := by
  have hterm (j : Nat) : 2 * |x j * x (j + k)| ≤ x j ^ 2 + x (j + k) ^ 2 := by
    rw [abs_mul, ← sq_abs (x j), ← sq_abs (x (j + k)), ← mul_assoc]
    exact two_mul_le_add_sq _ _
  have hunshifted : ∑ j ∈ Finset.range (n - k), x j ^ 2 ≤ ∑ j ∈ Finset.range n, x j ^ 2 :=
    Finset.sum_le_sum_of_subset_of_nonneg (Finset.range_mono (Nat.sub_le n k))
      fun j _ _ => sq_nonneg _
  have hdouble : 2 * |lagSum x n k| ≤ 2 * ∑ j ∈ Finset.range n, x j ^ 2 :=
    calc 2 * |lagSum x n k|
        ≤ 2 * ∑ j ∈ Finset.range (n - k), |x j * x (j + k)| := by
          rw [lagSum_eq_sum]
          gcongr
          exact Finset.abs_sum_le_sum_abs _ _
      _ = ∑ j ∈ Finset.range (n - k), 2 * |x j * x (j + k)| := Finset.mul_sum _ _ _
      _ ≤ ∑ j ∈ Finset.range (n - k), (x j ^ 2 + x (j + k) ^ 2) :=
          Finset.sum_le_sum fun j _ => hterm j
      _ = ∑ j ∈ Finset.range (n - k), x j ^ 2 + ∑ j ∈ Finset.range (n - k), x (j + k) ^ 2 :=
          Finset.sum_add_distrib
      _ ≤ 2 * ∑ j ∈ Finset.range n, x j ^ 2 := by
          linarith [sum_shifted_squares_le x n k]
  simp only [lagSum_zero_eq_sum, ← sq]
  linarith

/-- The energy of a legal frame, which a legal `NMAX` keeps far from the accumulator's end (R146). -/
theorem energy_range {s : State} {n : Nat} (hlegal : s.cfg.Legal) (hn : n ≤ s.cfg.nmax) :
    0 ≤ lagSum s.sample n 0 ∧ lagSum s.sample n 0 ≤ 2 ^ 45 := by
  obtain ⟨⟨-, -, hnmax⟩, -⟩ := hlegal
  obtain ⟨hlow, hhigh⟩ := lagSum_zero_range s n
  exact ⟨hlow, by omega⟩

/-! ### The scale (R128, R147) -/

/-- The scale is the least `k` that shifts the energy into 31 bits (R128). -/
theorem scaleOf_le_iff {p : Int} (h0 : 0 ≤ p) (h : p < 2 ^ 63) {k : Nat} :
    scaleOf p ≤ k ↔ p < 2 ^ (31 + k) := by
  rw [scaleOf_eq_bitLength h0 h, bitLength_le_iff, Int.toNat_lt (by omega),
    Int.ediv_lt_iff_lt_mul (by norm_num), pow_add, mul_comm]
  norm_cast

/-- Settles O24: each bound of the scale is a bound of the energy. -/
theorem scaleRange : Obligations.ScaleRange := by
  intro s n hlegal hn
  rw [← lagSum_zero_eq_sum]
  obtain ⟨hlow, hhigh⟩ := energy_range hlegal hn
  have hscale (k : Nat) := scaleOf_le_iff (k := k) hlow (by omega)
  refine ⟨hlow, hhigh, (hscale 15).2 (by omega), ?_, fun hsmall => ?_⟩
  · rw [← Nat.le_zero, hscale, Int.le_sub_one_iff]
  · have henergy : lagSum s.sample n 0 ≤ 2 ^ 38 := by
      have := (lagSum_zero_range s n).2
      omega
    exact ⟨henergy, (hscale 8).2 (by omega)⟩

/-- With the scale of `p` the shifted value fits 31 bits (R128, R144). -/
theorem div_two_pow_scaleOf_lt {p : Int} (h0 : 0 ≤ p) (h : p < 2 ^ 63) :
    p / 2 ^ scaleOf p < 2 ^ 31 := by
  rw [Int.ediv_lt_iff_lt_mul (by positivity), ← pow_add]
  exact (scaleOf_le_iff h0 h).1 le_rfl

/-- A shift by less than the scale leaves more than 31 bits (R154). -/
theorem le_div_two_pow_of_lt_scaleOf {p : Int} (h0 : 0 ≤ p) (h : p < 2 ^ 63) {k : Nat}
    (hk : k < scaleOf p) : 2 ^ 31 ≤ p / 2 ^ k := by
  rw [Int.le_ediv_iff_mul_le (by positivity), ← pow_add, ← not_lt, ← scaleOf_le_iff h0 h]
  omega

/-- A positive scale leaves `r[0]` the top bit of its 31 (R148). -/
theorem le_div_two_pow_scaleOf {p : Int} (h0 : 0 ≤ p) (h : p < 2 ^ 63) (hpos : 0 < scaleOf p) :
    2 ^ 30 ≤ p / 2 ^ scaleOf p := by
  have hleast := scaleOf_le_iff h0 h (k := scaleOf p - 1)
  rw [show 31 + (scaleOf p - 1) = 30 + scaleOf p by omega] at hleast
  rw [Int.le_ediv_iff_mul_le (by positivity), ← pow_add, ← not_lt, ← hleast]
  omega

/-! ### The coefficients (R145, R148) -/

/-- Floors of values bounded by `p` lie between the floors of `-p` and `p`, of which the first is at least
`-(p / d) - 1` (R120, R148). -/
theorem ediv_bounds_of_abs_le {p q d : Int} (hd : 0 < d) (h : |q| ≤ p) :
    -(p / d) - 1 ≤ q / d ∧ q / d ≤ p / d := by
  obtain ⟨hlow, hhigh⟩ := abs_le.1 h
  refine ⟨?_, Int.ediv_le_ediv hd hhigh⟩
  rw [Int.le_ediv_iff_mul_le hd]
  have := Int.lt_ediv_add_one_mul_self p hd
  linarith

/-- The coefficient `r[k]` as an exact integer: the lag sum shifted by the scale of lag 0 (R144, R145). -/
def State.coefficient (s : State) (n k : Nat) : Int :=
  asr (lagSum s.sample n k) (scaleOf (lagSum s.sample n 0))

/-- A coefficient lies between `-r[0] - 1` and `r[0]` and is an `int32` (R148). -/
theorem State.coefficient_bounds {s : State} {n : Nat} (hlegal : s.cfg.Legal)
    (hn : n ≤ s.cfg.nmax) (k : Nat) :
    -s.coefficient n 0 - 1 ≤ s.coefficient n k ∧ s.coefficient n k ≤ s.coefficient n 0 ∧
      -2 ^ 31 ≤ s.coefficient n k ∧ s.coefficient n k ≤ 2 ^ 31 - 1 := by
  obtain ⟨hlow, hhigh⟩ := energy_range hlegal hn
  have hr0 : s.coefficient n 0 < 2 ^ 31 := div_two_pow_scaleOf_lt hlow (by omega)
  obtain ⟨hrk, hrk'⟩ : -s.coefficient n 0 - 1 ≤ s.coefficient n k ∧
      s.coefficient n k ≤ s.coefficient n 0 :=
    ediv_bounds_of_abs_le (by positivity) (abs_lagSum_le_energy s.sample n k)
  exact ⟨hrk, hrk', by omega, by omega⟩

/-- Settles O25: the bounds of the coefficients follow from those of the energy and its scale. -/
theorem coefficientsFitExactly : Obligations.CoefficientsFitExactly := by
  intro s n hlegal hn
  simp only [← lagSum_eq_sum]
  obtain ⟨hlow, hhigh⟩ := energy_range hlegal hn
  refine ⟨le_div_two_pow_scaleOf hlow (by omega), ?_, fun k =>
    ⟨abs_lagSum_le_energy s.sample n k, State.coefficient_bounds hlegal hn k⟩⟩
  obtain ⟨-, -, -, hfits⟩ := State.coefficient_bounds hlegal hn 0
  exact hfits

end Sys2Proof.Machine
end

section
/-! PROOF of O19, O20, O22 and O26 to O28 (rules R140, R141, R144, R145, R149, R150, R152, R154, R158):
`ACORR` and `ACORRV` are one command with two lists of checks, and what that command leaves in each
register and coefficient. -/

namespace Sys2Proof.Machine

open Sys2Proof

/-! ### The two commands (R140, R141, R150) -/

/-- On a block with lanes the checks of `ACORRV` are those of `ACORR` (R101, R150). -/
theorem acorrvViolated_of_lanes {cfg : Config} (h : cfg.lanes ≠ 1) (n order : Nat) :
    acorrvViolated cfg n order = acorrViolated cfg n order := if_neg h

/-- A bad length is the first thing wrong (R141, R213). -/
theorem acorrViolated_eq_len {cfg : Config} {n order : Nat}
    (h : ¬ (n % 4 = 0 ∧ 8 ≤ n ∧ n ≤ cfg.nmax)) : acorrViolated cfg n order = some .len :=
  if_pos (by omega)

/-- A bad order is seen only behind a good length (R141, R213). -/
theorem acorrViolated_eq_order {cfg : Config} {n order : Nat}
    (hn : n % 4 = 0 ∧ 8 ≤ n ∧ n ≤ cfg.nmax) (h : ¬ (order < n ∧ order ≤ cfg.ordmax)) :
    acorrViolated cfg n order = some .order :=
  (if_neg (by omega)).trans (if_pos (by omega))

/-- `ACORR` by its check and its effect (R140). -/
theorem exec_acorr (n order : Nat) (s : State) :
    exec (.acorr n order) s =
      s.command (encode (.acorr n order)) (acorrViolated s.cfg n order) fun s =>
        s.storeCoefficients (lagSum s.sample n) order := rfl

/-- `ACORRV` has its own checks and the effect of `ACORR`, since its sums are those of `ACORR`
(R150, R152). -/
theorem exec_acorrv (n order : Nat) (s : State) :
    exec (.acorrv n order) s =
      s.command (encode (.acorrv n order)) (acorrvViolated s.cfg n order) fun s =>
        s.storeCoefficients (lagSum s.sample n) order := by
  have hsums (s : State) : groupedLagSum s.cfg.lanes s.sample n = lagSum s.sample n :=
    funext fun k => groupedLagSum_eq_lagSum _ _ _ _
  simp only [exec, execAcorrv, hsums]

/-- Settles O22: each failing operand makes its check the first violated one. -/
theorem autocorrelationPreconditions : Obligations.AutocorrelationPreconditions := by
  intro s n order
  refine ⟨fun hn => ⟨?_, fun hlanes => ?_⟩, fun hn horder => ⟨?_, fun hlanes => ?_⟩,
    fun hlanes => ?_⟩
  · rw [exec_acorr, acorrViolated_eq_len hn, State.command_some]
  · rw [exec_acorrv, acorrvViolated_of_lanes hlanes, acorrViolated_eq_len hn, State.command_some]
  · rw [exec_acorr, acorrViolated_eq_order hn horder, State.command_some]
  · rw [exec_acorrv, acorrvViolated_of_lanes hlanes, acorrViolated_eq_order hn horder,
      State.command_some]
  · rw [exec_acorrv, acorrvViolated, if_pos hlanes, State.command_some]

/-- What both commands leave when they complete (R149). -/
def State.autocorrelated (s : State) (n order : Nat) : State :=
  (s.storeCoefficients (lagSum s.sample n) order).succeed

/-- On legal operands `ACORR` completes (R140, R141). -/
theorem exec_acorr_of_legal {s : State} {n order : Nat} (h : AcorrLegal s.cfg n order) :
    exec (.acorr n order) s = .next (s.autocorrelated n order) := by
  rw [exec_acorr, acorrViolated_eq_none.2 h, State.command_none, State.autocorrelated]

/-- On legal operands and a block with lanes `ACORRV` completes alike (R150, R152). -/
theorem exec_acorrv_of_legal {s : State} {n order : Nat} (hlanes : s.cfg.lanes ≠ 1)
    (h : AcorrLegal s.cfg n order) :
    exec (.acorrv n order) s = .next (s.autocorrelated n order) := by
  rw [exec_acorrv, acorrvViolated_of_lanes hlanes, acorrViolated_eq_none.2 h, State.command_none,
    State.autocorrelated]

/-- Settles O20: both commands complete with one next state. -/
theorem acorrvEqualsAcorr : Obligations.AcorrvEqualsAcorr := by
  intro s n order hlanes hlegal
  exact ⟨groupwiseSumIsTheLagSum s.cfg.lanes s.sample n, s.autocorrelated n order,
    exec_acorrv_of_legal (by omega) hlegal, exec_acorr_of_legal hlegal, rfl⟩

/-- Either command on a block with parameters `cfg`: all such blocks raise the same error, or they all
complete (R141, R149, R150). -/
theorem exec_autocorrelation_cases {i : Instr} {n order : Nat} {cfg : Config}
    (hi : i = .acorr n order ∨ i = .acorrv n order) :
    (∃ code, ∀ s : State, s.cfg = cfg → exec i s = .next (s.raise code (encode i))) ∨
      (AcorrLegal cfg n order ∧
        ∀ s : State, s.cfg = cfg → exec i s = .next (s.autocorrelated n order)) := by
  rcases hi with rfl | rfl
  · cases hv : acorrViolated cfg n order with
    | some code =>
      exact .inl ⟨code, fun s hs => by rw [exec_acorr, hs, hv, State.command_some]⟩
    | none =>
      have hlegal := acorrViolated_eq_none.1 hv
      exact .inr ⟨hlegal, fun s hs => exec_acorr_of_legal (hs ▸ hlegal)⟩
  · cases hv : acorrvViolated cfg n order with
    | some code =>
      exact .inl ⟨code, fun s hs => by rw [exec_acorrv, hs, hv, State.command_some]⟩
    | none =>
      by_cases hlanes : cfg.lanes = 1
      · rw [acorrvViolated, if_pos hlanes] at hv
        cases hv
      · rw [acorrvViolated_of_lanes hlanes] at hv
        have hlegal := acorrViolated_eq_none.1 hv
        exact .inr ⟨hlegal, fun s hs => exec_acorrv_of_legal (hs ▸ hlanes) (hs ▸ hlegal)⟩

/-- A successful run of either command had legal operands and left the results (R141, R149). -/
theorem eq_autocorrelated_of_status {i : Instr} {n order : Nat} {s t : State}
    (hi : i = .acorr n order ∨ i = .acorrv n order) (h : exec i s = .next t) (h0 : t.status = 0) :
    AcorrLegal s.cfg n order ∧ t = s.autocorrelated n order ∧
      ∀ s' : State, s'.cfg = s.cfg → exec i s' = .next (s'.autocorrelated n order) := by
  rcases exec_autocorrelation_cases (cfg := s.cfg) hi with ⟨code, hraise⟩ | ⟨hlegal, hrun⟩
  · cases h.symm.trans (hraise s rfl)
    exact absurd h0 (State.raise_status_ne _ _ _)
  · cases h.symm.trans (hrun s rfl)
    exact ⟨hlegal, rfl, hrun⟩

/-! ### The results (R144, R145, R149) -/

/-- The scale is at most 32 for every energy, so its pattern holds it (R127, R128). -/
theorem toNat_pattern32_scaleOf (p : Int) : (pattern32 (scaleOf p)).toNat = scaleOf p := by
  have hle : scaleOf p ≤ 32 := by
    simp only [scaleOf]
    split <;> omega
  rw [pattern32, BitVec.toNat_ofInt]
  omega

@[simp] theorem State.autocorrelated_scale (s : State) (n order : Nat) :
    (s.autocorrelated n order).scale = pattern32 (scaleOf (lagSum s.sample n 0)) := rfl

@[simp] theorem State.autocorrelated_outlen (s : State) (n order : Nat) :
    (s.autocorrelated n order).outlen = BitVec.ofNat 32 (order + 1) := rfl

@[simp] theorem State.autocorrelated_status (s : State) (n order : Nat) :
    (s.autocorrelated n order).status = 0 := rfl

theorem State.rmem_autocorrelated (s : State) (n : Nat) {k order : Nat} (hk : k ≤ order) :
    (s.autocorrelated n order).rmem k = pattern32 (s.coefficient n k) := by
  rw [State.autocorrelated, State.rmem_succeed, State.rmem_storeCoefficients _ _ _ hk,
    State.coefficient]

/-- A coefficient loses no bit when it is stored (R148). -/
theorem State.toInt_rmem_autocorrelated {s : State} {n k order : Nat} (hlegal : s.cfg.Legal)
    (hn : n ≤ s.cfg.nmax) (hk : k ≤ order) :
    ((s.autocorrelated n order).rmem k).toInt = s.coefficient n k := by
  obtain ⟨-, -, hlow, hhigh⟩ := State.coefficient_bounds hlegal hn k
  rw [s.rmem_autocorrelated n hk]
  exact toInt_pattern32 hlow hhigh

/-- Settles O19: the next state is `autocorrelated`, read register by register and byte by byte. -/
theorem acorrResult : Obligations.AcorrResult := by
  intro s n order hcfg hlegal
  simp only [← lagSum_eq_sum]
  have hrun := exec_acorr_of_legal hlegal
  obtain ⟨-, -, hn, -, horder⟩ := hlegal
  refine ⟨_, hrun, fun k hk => State.toInt_rmem_autocorrelated hcfg hn hk,
    toNat_pattern32_scaleOf _, ?_, fun a ha => s.find_storeCoefficients _ order ha, rfl⟩
  obtain ⟨-, ⟨hordmax, -⟩, -⟩ := hcfg
  rw [State.autocorrelated_outlen, BitVec.toNat_ofNat]
  omega

/-! ### What the results depend on (R149, R154, R158) -/

/-- A lag sum sees the products of the samples inside the frame (R143). -/
theorem lagSum_congr {x y : Nat → Int} {n : Nat}
    (h : ∀ i j, i < n → j < n → x i * x j = y i * y j) : lagSum x n = lagSum y n :=
  funext fun _ => accumulate_congr fun j _ => h j _ (by omega) (by omega)

/-- Frames with the same products of samples have the same results (R149, R154). -/
theorem State.autocorrelated_congr {s s' : State} {n : Nat} (order : Nat)
    (h : ∀ i j, i < n → j < n → s.sample i * s.sample j = s'.sample i * s'.sample j) :
    (s.autocorrelated n order).scale = (s'.autocorrelated n order).scale ∧
      ∀ k, k ≤ order → (s.autocorrelated n order).rmem k = (s'.autocorrelated n order).rmem k := by
  have hsums : lagSum s.sample n = lagSum s'.sample n := lagSum_congr h
  refine ⟨by simp only [State.autocorrelated_scale, hsums], fun k hk => ?_⟩
  simp only [s.rmem_autocorrelated n hk, s'.rmem_autocorrelated n hk, State.coefficient, hsums]

/-- Settles O27: the checks see the parameters only, and the results the samples of the frame only. -/
theorem autocorrelationIsStateless : Obligations.AutocorrelationIsStateless := by
  intro s s' t t' n order i hi hcfg hframe h h'
  rcases exec_autocorrelation_cases (cfg := s.cfg) hi with ⟨code, hraise⟩ | ⟨-, hrun⟩
  · cases h.symm.trans (hraise s rfl)
    cases h'.symm.trans (hraise s' hcfg.symm)
    exact ⟨rfl, fun h0 => absurd h0 (State.raise_status_ne _ _ _)⟩
  · cases h.symm.trans (hrun s rfl)
    cases h'.symm.trans (hrun s' hcfg.symm)
    obtain ⟨hscale, hrmem⟩ := State.autocorrelated_congr order fun j l hj hl =>
      show s.sample j * s.sample l = s'.sample j * s'.sample l by rw [hframe j hj, hframe l hl]
    simp only [State.autocorrelated_status, State.autocorrelated_outlen]
    exact ⟨trivial, fun _ => ⟨hscale, trivial, hrmem⟩⟩

/-- Settles O26: the command completed, the bounds are those of the coefficients as integers, and
negating both samples of a product does not change it. -/
theorem autocorrelationProperties : Obligations.AutocorrelationProperties := by
  intro s t n order i hcfg hi h h0
  obtain ⟨⟨-, -, hn, -⟩, rfl, hrun⟩ := eq_autocorrelated_of_status hi h h0
  obtain ⟨hlow, hhigh⟩ := energy_range hcfg hn
  have hr (k : Nat) (hk : k ≤ order) := State.toInt_rmem_autocorrelated hcfg hn hk
  rw [hr 0 (Nat.zero_le _), State.autocorrelated_scale, toNat_pattern32_scaleOf,
    ← lagSum_zero_eq_sum]
  refine ⟨Int.ediv_nonneg hlow (by positivity), rfl, fun hpos => ?minimal,
    fun s' t' hcfg' hneg h' => ?negated, fun k hk => ?bounds⟩
  case minimal =>
    exact le_div_two_pow_of_lt_scaleOf hlow (by omega) (Nat.sub_one_lt_of_lt hpos)
  case negated =>
    cases h'.symm.trans (hrun s' hcfg')
    exact State.autocorrelated_congr order fun j l hj hl => by
      rw [hneg j hj, hneg l hl, neg_mul_neg]
  case bounds =>
    obtain ⟨hlower, hupper, -⟩ := State.coefficient_bounds hcfg hn k
    rw [hr k hk]
    exact ⟨hlower, hupper⟩

/-- Settles O28: the sums of the frame `1 .. 8` are evaluated. -/
theorem sourceScenarioAutocorrelation : Obligations.SourceScenarioAutocorrelation := by
  intro s hcfg hordmax hframe
  obtain ⟨⟨-, hnmax, -⟩, -⟩ := hcfg
  have hsums : lagSum s.sample 8 = lagSum (fun j => j + 1) 8 :=
    lagSum_congr fun i j hi hj => by rw [hframe i hi, hframe j hj]
  have hrmem (k : Nat) (hk : k ≤ 2) := s.rmem_autocorrelated 8 hk
  simp only [State.coefficient, hsums] at hrmem
  refine ⟨_, exec_acorr_of_legal (by omega), rfl, ?_, ?_, ?_, ?_, rfl⟩
  · exact (hrmem 0 (by decide)).trans (by decide)
  · exact (hrmem 1 (by decide)).trans (by decide)
  · exact (hrmem 2 (by decide)).trans (by decide)
  · rw [State.autocorrelated_scale, hsums]
    decide

end Sys2Proof.Machine
end

section
/-! PROOF of O29, O33 and O37 (rules R172 to R174, R182, R190): the widths inside an allpass section; a
filter sees and changes its own buffer positions only, so two filters on separate positions commute; two
frames whose order is heard. -/

namespace Sys2Proof.Machine

open Sys2Proof

/-! ### One section (R172, R174) -/

/-- A value times `2^16` has the pattern of the value shifted left by 16 (R66, R174). -/
theorem pattern32_mul_65536 (v : Int) : pattern32 (v * 65536) = pattern32 v <<< 16 := by
  rw [pattern32, pattern32, BitVec.shiftLeft_eq_mul_twoPow, BitVec.ofInt_mul]
  rfl

/-- Settles O29: products, sums and shifts of values in range stay in range, so the truncation of `bh` is
the identity. -/
theorem sectionWidths : Obligations.SectionWidths := by
  intro s a acc hs hs' ha ha' _ _ p1 b bh p2
  have hp1 : -16384 ≤ p1 ∧ p1 ≤ 16384 := mulrs16_range ⟨hs, hs'⟩ (by omega)
  have hb : -2147483648 ≤ b ∧ b ≤ 2147483647 := sat32_range _
  have hbh : -32768 ≤ bh ∧ bh ≤ 32767 := asr16_range hb.1 hb.2
  have hp2 : -16384 ≤ p2 ∧ p2 ≤ 16384 := mulrs16_range hbh (by omega)
  have htrunc : trunc16 bh = bh := trunc16_of_range hbh.1 hbh.2
  refine ⟨hp1, by omega, by omega, hbh, htrunc, by omega, by omega, by omega,
    pattern32_mul_65536 s, ?_⟩
  rw [← htrunc]
  rfl

/-! ### The order of the filters (R173, R182) -/

/-- A filter neither sees nor changes a buffer position that is not its own (R173, R182). -/
theorem apFilter_set (a0 a1 : Int) (count : Nat) :
    ∀ (i : Nat) (acc0 acc1 : Int) (wbuf : List Int) (j : Nat) (v : Int),
      (∀ t, t < count → i + 2 * t ≠ j) →
      apFilter a0 a1 count i acc0 acc1 (wbuf.set j v) =
        ((apFilter a0 a1 count i acc0 acc1 wbuf).1, (apFilter a0 a1 count i acc0 acc1 wbuf).2.1,
          (apFilter a0 a1 count i acc0 acc1 wbuf).2.2.set j v) := by
  induction count with
  | zero => intro i acc0 acc1 wbuf j v _; rfl
  | succ count ih =>
    intro i acc0 acc1 wbuf j v hj
    have hij : i ≠ j := hj 0 (by omega)
    rw [apFilter, apFilter, getD_set_of_ne _ hij.symm, List.set_comm _ _ hij.symm,
      ih _ _ _ _ _ _ fun t ht => by have := hj (t + 1) (by omega); omega]

/-- Two filters with no position in common commute: the second leaves the accumulators it leaves without
the first, and the buffer does not depend on which ran first (R182). -/
theorem apFilter_comm (a0 a1 b0 b1 : Int) {i j m : Nat} (u0 u1 : Int) (count : Nat)
    (h : ∀ t k, t < m → i + 2 * t ≠ j + 2 * k) (l0 l1 : Int) (wbuf : List Int) :
    apFilter b0 b1 count j l0 l1 (apFilter a0 a1 m i u0 u1 wbuf).2.2 =
      ((apFilter b0 b1 count j l0 l1 wbuf).1, (apFilter b0 b1 count j l0 l1 wbuf).2.1,
        (apFilter a0 a1 m i u0 u1 (apFilter b0 b1 count j l0 l1 wbuf).2.2).2.2) := by
  induction count generalizing j l0 l1 wbuf with
  | zero => rfl
  | succ count ih =>
    have hinput : (apFilter a0 a1 m i u0 u1 wbuf).2.2.getD j 0 = wbuf.getD j 0 :=
      apFilter_getD_of_ne _ _ _ _ _ _ _ _ fun t ht => (h t 0 ht).symm
    have hset (v : Int) : (apFilter a0 a1 m i u0 u1 wbuf).2.2.set j v =
        (apFilter a0 a1 m i u0 u1 (wbuf.set j v)).2.2 := by
      rw [apFilter_set _ _ _ _ _ _ _ j _ fun t ht => h t 0 ht]
    rw [apFilter, apFilter, hinput, hset,
      ih fun t k ht => by have := h t (k + 1) ht; omega]

/-- Section 0 over the whole sequence and then section 1 is the branch (R173, R182). -/
theorem branch_eq_sectionPass (a0 a1 : Int) (xs : List Int) : ∀ acc0 acc1 : Int,
    branch a0 a1 acc0 acc1 xs =
      ((sectionPass a1 acc1 (sectionPass a0 acc0 xs).1).1, (sectionPass a0 acc0 xs).2,
        (sectionPass a1 acc1 (sectionPass a0 acc0 xs).1).2) := by
  induction xs with
  | nil => exact fun _ _ => rfl
  | cons v vs ih =>
    intro acc0 acc1
    simp only [branch, sectionPass, apSections, ih]

/-- Settles O33: the branches filter the odd and the even positions, which are apart. -/
theorem branchOrderDoesNotMatter : Obligations.BranchOrderDoesNotMatter := by
  refine ⟨fun a0 a1 b0 b1 u0 u1 l0 l1 count wbuf => ?_,
    fun a0 a1 acc0 acc1 xs => branch_eq_sectionPass a0 a1 xs acc0 acc1⟩
  have hlower := apFilter_comm a0 a1 b0 b1 (i := 1) (j := 0) (m := count) u0 u1 count
    (fun t k _ => by omega) l0 l1 wbuf
  have hupper := apFilter_comm b0 b1 a0 a1 (i := 0) (j := 1) (m := count) l0 l1 count
    (fun t k _ => by omega) u0 u1 wbuf
  exact ⟨hupper, by rw [hlower], by rw [hlower]⟩

/-! ### The order of the frames (R190) -/

/-- Frame `A` of V-D4. -/
def alternatingFrame : List Int := [1000, -2000, 3000, -4000, 5000, -6000, 7000, -8000]

/-- Frame `B` of V-D4, which saturates. -/
def saturatingFrame : List Int := [32767, 32767, -32768, -32768, 12345, -12345, 1, -1]

/-- V-D5, the context frame `B` leaves when it is first. -/
def afterSaturatingFrame : ApContext :=
  ⟨true, 0x0000FE52, 0x303930F8, 0xCFC713C2, 0x80000000, 0xFFFF0000⟩

theorem decimate_saturatingFrame :
    (decimate Config.default ApContext.zeroed 8 saturatingFrame).2 = afterSaturatingFrame := by
  decide

/-- V-D4: the output of frame `A` when it is first. -/
theorem decimate_alternatingFrame_first :
    (decimate Config.default ApContext.zeroed 8 alternatingFrame).1 = [0, -1, 998, 998] := by
  decide

/-- V-D5: the output of frame `A` when it is second. -/
theorem decimate_alternatingFrame_second :
    (decimate Config.default afterSaturatingFrame 8 alternatingFrame).1 =
      [-20423, -12346, 999, 998] := by
  decide

/-- Settles O37: frame `A` of V-D4 decimates to one output on a zeroed context and to another after
frame `B`. -/
theorem frameOrderMatters : Obligations.FrameOrderMatters := by
  refine ⟨Config.default, alternatingFrame, saturatingFrame, by decide, rfl, rfl, by decide, ?_⟩
  rw [decimate_saturatingFrame, decimate_alternatingFrame_first, decimate_alternatingFrame_second]
  decide

end Sys2Proof.Machine
end

section
/-! PROOF of O30 to O32 and O34 to O36 (rules R171, R173, R175 to R181, R185, R186, R190): the checks of
`DECIM`; the state it leaves, in terms of its two branches; then what the branches make of a cut
sequence, of zero coefficients, of zeros, and of equal frames. -/

namespace Sys2Proof.Machine

open Sys2Proof

/-! ### The checks (R171, R213) -/

/-- `DECIM` by its check and its effect (R170). -/
theorem exec_decim (n c : Nat) (s : State) :
    exec (.decim n c) s =
      s.command (encode (.decim n c)) (decimViolated s n c) fun s => s.storeDecimated n c := rfl

/-- A context that does not exist is the first thing wrong (R171, R213). -/
theorem decimViolated_eq_ctx {s : State} {n c : Nat} (hc : ¬ c < s.cfg.nctx) :
    decimViolated s n c = some .ctx := if_pos (by omega)

/-- A bad length is seen only behind an existing context (R171, R213). -/
theorem decimViolated_eq_len {s : State} {n c : Nat} (hc : c < s.cfg.nctx)
    (hn : ¬ (n % 2 = 0 ∧ 2 ≤ n ∧ n ≤ s.cfg.nmax)) : decimViolated s n c = some .len :=
  (if_neg (by omega)).trans (if_pos (by omega))

/-- An uninitialised context is seen only behind a good length (R171, R213). -/
theorem decimViolated_eq_uninit {s : State} {n c : Nat} (hc : c < s.cfg.nctx)
    (hn : n % 2 = 0 ∧ 2 ≤ n ∧ n ≤ s.cfg.nmax) (hv : (s.ctx c).valid = false) :
    decimViolated s n c = some .uninit := by
  rw [decimViolated, if_neg (by omega), if_neg (by omega), hv]
  rfl

/-- Settles O31: each failing operand makes its check the first violated one, and a word with a non-zero
must-be-zero field is in no row of the opcode map. -/
theorem decimPreconditions : Obligations.DecimPreconditions := by
  intro s n c
  refine ⟨fun hc => ?_, fun hc hn => ?_, fun hc hn hv => ?_, fun w hopc hzero => ?_⟩
  · rw [exec_decim, decimViolated_eq_ctx hc, State.command_some]
  · rw [exec_decim, decimViolated_eq_len hc hn, State.command_some]
  · rw [exec_decim, decimViolated_eq_uninit hc hn hv, State.command_some]
  · exact mustBeZeroFieldsAreChecked s w (.inl ⟨by simp [hopc], hzero⟩)

/-! ### What `DECIM` leaves (R175 to R181) -/

/-- The state `DECIM` leaves when it completes (R180). -/
def State.decimated (s : State) (n c : Nat) : State := (s.storeDecimated n c).succeed

/-- Output sample `m` in terms of the two branches (R179, R181). -/
def State.decimatedSample (s : State) (n c m : Nat) : Int :=
  satAdd16 ((s.lowerBranch n c).1.getD m 0) ((s.upperBranch n c).1.getD m 0)

/-- The context left, in terms of the two branches and the last sample (R176 to R178, R181). -/
def State.decimatedCtx (s : State) (n c : Nat) : ApContext where
  valid := (s.ctx c).valid
  u0 := pattern32 (s.upperBranch n c).2.1
  u1 := pattern32 (s.upperBranch n c).2.2
  l0 := pattern32 (s.lowerBranch n c).2.1
  l1 := pattern32 (s.lowerBranch n c).2.2
  carry := pattern32 (s.sample (n - 1) * 65536)

/-- On legal operands `DECIM` completes (R170, R171). -/
theorem exec_decim_of_legal {s : State} {n c : Nat} (h : DecimLegal s n c) :
    exec (.decim n c) s = .next (s.decimated n c) := by
  rw [exec_decim, decimViolated_eq_none.2 h, State.command_none, State.decimated]

/-- The only state a legal `DECIM` can answer. -/
theorem eq_decimated_of_exec {s t : State} {n c : Nat} (h : DecimLegal s n c)
    (ht : exec (.decim n c) s = .next t) : t = s.decimated n c := by
  cases ht.symm.trans (exec_decim_of_legal h)
  rfl

@[simp] theorem State.decimated_status (s : State) (n c : Nat) : (s.decimated n c).status = 0 := rfl

@[simp] theorem State.decimated_outlen (s : State) (n c : Nat) :
    (s.decimated n c).outlen = BitVec.ofNat 32 (n / 2) := rfl

/-- Half a legal frame fits `OUTLEN` (R7, R180). -/
theorem State.toNat_outlen_decimated {s : State} {n : Nat} (c : Nat) (hcfg : s.cfg.Legal)
    (hn : n ≤ s.cfg.nmax) : (s.decimated n c).outlen.toNat = n / 2 := by
  obtain ⟨⟨-, -, hnmax⟩, -⟩ := hcfg
  rw [State.decimated_outlen, BitVec.toNat_ofNat]
  omega

/-- The lower filter sees its own inputs, though the upper filter has run on the buffer (R178, R182). -/
theorem strided_lower_after_upper (s : State) (carry : Word) (n : Nat) (a0 a1 u0 u1 : Int) :
    strided (apFilter a0 a1 (n / 2) 1 u0 u1 (workingBuffer carry (s.frame n))).2.2 0 (n / 2) =
      lowerInputs (carry.toInt / 65536) s.sample n :=
  strided_lower _ _ _ _ fun _ _ => apFilter_getD_of_ne _ _ _ _ _ _ _ _ fun _ _ => by omega

/-- The context of a decimated frame is that of its branches (R176 to R178, R181). -/
theorem State.decimate_ctx (s : State) {n : Nat} (c : Nat) (hn : 0 < n) :
    (decimate s.cfg (s.ctx c) n (s.frame n)).2 = s.decimatedCtx n c := by
  simp only [decimate, apFilter_acc, strided_upper, strided_lower_after_upper,
    State.frame_getD s (Nat.sub_one_lt_of_lt hn)]
  rfl

/-- Output `m` of a decimated frame is the saturated sum of the branches' outputs `m` (R179, R181). -/
theorem State.decimate_getElem (s : State) {n m : Nat} (c : Nat) (hm : m < n / 2)
    (h : m < (decimate s.cfg (s.ctx c) n (s.frame n)).1.length) :
    (decimate s.cfg (s.ctx c) n (s.frame n)).1[m] = s.decimatedSample n c m := by
  have hlen : 1 + 2 * m < (workingBuffer (s.ctx c).carry (s.frame n)).length := by
    simp only [workingBuffer, List.length_cons, State.frame_length]
    omega
  simp only [decimate, recombine_getElem]
  rw [State.decimatedSample]
  congr 1
  · have hlower := apFilter_getD s.cfg.apLower0 s.cfg.apLower1 (n / 2) 0 (s.ctx c).l0.toInt
      (s.ctx c).l1.toInt (apFilter s.cfg.apUpper0 s.cfg.apUpper1 (n / 2) 1 (s.ctx c).u0.toInt
        (s.ctx c).u1.toInt (workingBuffer (s.ctx c).carry (s.frame n))).2.2 m hm
      (by rw [apFilter_length]; omega)
    rwa [Nat.zero_add, strided_lower_after_upper] at hlower
  · rw [apFilter_getD_of_ne _ _ _ _ _ _ _ _ fun _ _ => by omega, Nat.add_comm,
      apFilter_getD _ _ _ _ _ _ _ _ hm hlen, strided_upper]
    rfl

theorem State.ymem_decimated (s : State) {n m : Nat} (c : Nat) (hm : m < n / 2) :
    (s.decimated n c).ymem m = pattern16 (s.decimatedSample n c m) := by
  have hlen : m < (decimate s.cfg (s.ctx c) n (s.frame n)).1.length := by
    rwa [decimate_length]
  rw [← s.decimate_getElem c hm hlen]
  exact State.ymem_storeHalves _ _ _ (s.storeDecimated_mem n c) hlen

/-- An output sample loses no bit when it is stored (R122, R179). -/
theorem State.toInt_ymem_decimated (s : State) {n m : Nat} (c : Nat) (hm : m < n / 2) :
    ((s.decimated n c).ymem m).toInt = s.decimatedSample n c m := by
  obtain ⟨hlow, hhigh⟩ := sat16_range
    ((s.lowerBranch n c).1.getD m 0 + (s.upperBranch n c).1.getD m 0)
  rw [s.ymem_decimated c hm]
  exact toInt_pattern16 hlow hhigh

theorem State.ctx_decimated (s : State) {n c : Nat} (hc : c < 32) (hn : 0 < n) (d : Nat) :
    (s.decimated n c).ctx d = if d = c then s.decimatedCtx n c else s.ctx d := by
  rw [State.decimated, State.ctx_succeed, s.ctx_storeDecimated n hc, s.decimate_ctx c hn]

/-- Outside `YMEM[0 .. n/2 - 1]` every byte is as before (R180). -/
theorem State.find_decimated (s : State) {n a : Nat} (c : Nat)
    (ha : a < ymemAddr 0 ∨ ymemAddr (n / 2) ≤ a) :
    Memory.find (s.decimated n c).mem a = Memory.find s.mem a := by
  rw [State.decimated, State.succeed_mem, State.storeDecimated_mem]
  apply Memory.find_storeHalves_of_not_mem
  simp only [List.length_map, decimate_length, ymemAddr] at *
  omega

@[simp] theorem upperInputs_length (x : Nat → Int) (n : Nat) : (upperInputs x n).length = n / 2 := by
  simp [upperInputs]

@[simp] theorem lowerInputs_length (last : Int) (x : Nat → Int) (n : Nat) :
    (lowerInputs last x n).length = n / 2 := by
  simp [lowerInputs]

theorem upperInputs_ne_nil (x : Nat → Int) {n : Nat} (hn : 2 ≤ n) : upperInputs x n ≠ [] := by
  rw [← List.length_pos_iff, upperInputs_length]
  omega

theorem lowerInputs_ne_nil (last : Int) (x : Nat → Int) {n : Nat} (hn : 2 ≤ n) :
    lowerInputs last x n ≠ [] := by
  rw [← List.length_pos_iff, lowerInputs_length]
  omega

/-- The cells left hold the accumulators and the last sample exactly (R174 to R178). -/
theorem State.toInt_decimatedCtx (s : State) {n : Nat} (c : Nat) (hn : 2 ≤ n) :
    (s.decimatedCtx n c).u0.toInt = (s.upperBranch n c).2.1 ∧
      (s.decimatedCtx n c).u1.toInt = (s.upperBranch n c).2.2 ∧
      (s.decimatedCtx n c).l0.toInt = (s.lowerBranch n c).2.1 ∧
      (s.decimatedCtx n c).l1.toInt = (s.lowerBranch n c).2.2 ∧
      (s.decimatedCtx n c).carry.toInt = s.sample (n - 1) * 65536 := by
  obtain ⟨⟨hu0, hu0'⟩, hu1, hu1'⟩ := branch_acc_range s.cfg.apUpper0 s.cfg.apUpper1 _
    (s.ctx c).u0.toInt (s.ctx c).u1.toInt (upperInputs_ne_nil s.sample hn)
  obtain ⟨⟨hl0, hl0'⟩, hl1, hl1'⟩ := branch_acc_range s.cfg.apLower0 s.cfg.apLower1 _
    (s.ctx c).l0.toInt (s.ctx c).l1.toInt
    (lowerInputs_ne_nil ((s.ctx c).carry.toInt / 65536) s.sample hn)
  obtain ⟨hlast, hlast'⟩ := sample_range s (n - 1)
  exact ⟨toInt_pattern32 hu0 hu0', toInt_pattern32 hu1 hu1', toInt_pattern32 hl0 hl0',
    toInt_pattern32 hl1 hl1', toInt_pattern32 (by omega) (by omega)⟩

/-- Settles O30: the next state is `decimated`, read output by output, cell by cell and byte by byte. -/
theorem decimFiltersBothBranches : Obligations.DecimFiltersBothBranches := by
  intro s n c hcfg hlegal
  have hrun := exec_decim_of_legal hlegal
  obtain ⟨hc, -, hn, hnmax, hvalid⟩ := hlegal
  have hc32 : c < 32 := by
    obtain ⟨-, -, ⟨-, hnctx⟩, -⟩ := hcfg
    omega
  have hctx (d : Nat) := s.ctx_decimated (n := n) hc32 (by omega) d
  obtain ⟨hu0, hu1, hl0, hl1, hcarry⟩ := s.toInt_decimatedCtx c hn
  refine ⟨_, hrun, fun m hm => ?_, ?_⟩
  · rw [s.toInt_ymem_decimated c hm]
    exact sat16_eq_clamp _
  · rw [hctx c, if_pos rfl]
    exact ⟨hvalid, hu0, hu1, hl0, hl1, hcarry, State.toNat_outlen_decimated c hcfg hnmax,
      fun d hd => by rw [hctx d, if_neg hd], fun a ha => s.find_decimated c ha, rfl⟩

/-! ### What the branches depend on (R180, R190) -/

theorem upperInputs_congr {x y : Nat → Int} {n : Nat} (h : ∀ j, j < n → x j = y j) :
    upperInputs x n = upperInputs y n := by
  refine List.map_congr_left fun m hm => h _ ?_
  have := List.mem_range.1 hm
  omega

theorem lowerInputs_congr {x y : Nat → Int} {n : Nat} (last : Int) (h : ∀ j, j < n → x j = y j) :
    lowerInputs last x n = lowerInputs last y n := by
  refine List.map_congr_left fun m hm => ?_
  have := List.mem_range.1 hm
  rw [h (2 * m - 1) (by omega)]

theorem State.upperBranch_congr {s s' : State} {n c : Nat} (hcfg : s.cfg = s'.cfg)
    (hctx : s.ctx c = s'.ctx c) (h : ∀ j, j < n → s.sample j = s'.sample j) :
    s.upperBranch n c = s'.upperBranch n c := by
  simp only [State.upperBranch, hcfg, hctx, upperInputs_congr h]

theorem State.lowerBranch_congr {s s' : State} {n c : Nat} (hcfg : s.cfg = s'.cfg)
    (hctx : s.ctx c = s'.ctx c) (h : ∀ j, j < n → s.sample j = s'.sample j) :
    s.lowerBranch n c = s'.lowerBranch n c := by
  simp only [State.lowerBranch, hcfg, hctx, lowerInputs_congr _ h]

@[simp] theorem State.upperBranch_length (s : State) (n c : Nat) :
    (s.upperBranch n c).1.length = n / 2 := by
  simp [State.upperBranch]

@[simp] theorem State.lowerBranch_length (s : State) (n c : Nat) :
    (s.lowerBranch n c).1.length = n / 2 := by
  simp [State.lowerBranch]

/-- Settles O36: the outputs and the context left are those of the branches, which see the parameters, the
context and the frame. -/
theorem decimReadsOnlyFrameAndContext : Obligations.DecimReadsOnlyFrameAndContext := by
  intro s s' t t' n c hcfg hctx hlegal hnctx hframe h h'
  have hlegal' : DecimLegal s' n c := by
    simpa only [DecimLegal, ← hcfg, ← hctx] using hlegal
  cases eq_decimated_of_exec hlegal h
  cases eq_decimated_of_exec hlegal' h'
  obtain ⟨hc, -, hn, -⟩ := hlegal
  have hupper := State.upperBranch_congr hcfg hctx hframe
  have hlower := State.lowerBranch_congr hcfg hctx hframe
  refine ⟨?_, ?_, ?_, fun m hm => ?_⟩
  · rw [s.ctx_decimated (by omega) (by omega), s'.ctx_decimated (by omega) (by omega), if_pos rfl,
      if_pos rfl]
    simp only [State.decimatedCtx, hctx, hupper, hlower, hframe (n - 1) (by omega)]
  · rw [State.decimated_outlen, State.decimated_outlen]
  · rw [State.decimated_status, State.decimated_status]
  · rw [s.ymem_decimated c hm, s'.ymem_decimated c hm]
    simp only [State.decimatedSample, hupper, hlower]

/-! ### Cutting a stream (R185) -/

/-- A branch on a joined sequence goes on from the accumulators of the first part (R173, R185). -/
theorem branch_append (a0 a1 : Int) (xs ys : List Int) : ∀ acc0 acc1 : Int,
    branch a0 a1 acc0 acc1 (xs ++ ys) =
      let first := branch a0 a1 acc0 acc1 xs
      let second := branch a0 a1 first.2.1 first.2.2 ys
      (first.1 ++ second.1, second.2) := by
  induction xs with
  | nil => exact fun _ _ => rfl
  | cons v vs ih =>
    intro acc0 acc1
    simp only [List.cons_append, branch, ih]

/-- The even samples of a joined frame are those of its parts (R181, R185). -/
theorem upperInputs_add (x : Nat → Int) {n1 : Nat} (n2 : Nat) (h : n1 % 2 = 0) :
    upperInputs x (n1 + n2) = upperInputs x n1 ++ upperInputs (fun j => x (n1 + j)) n2 := by
  simp only [upperInputs]
  rw [show (n1 + n2) / 2 = n1 / 2 + n2 / 2 by omega, List.range_add, List.map_append, List.map_map]
  congr 1
  refine List.map_congr_left fun m _ => congrArg x ?_
  rw [Nat.mul_add, Nat.mul_div_cancel' (Nat.dvd_of_mod_eq_zero h)]

/-- The lower inputs of the second part begin with the last sample of the first (R175, R181, R185). -/
theorem lowerInputs_add (last : Int) (x : Nat → Int) {n1 : Nat} (n2 : Nat) (h : n1 % 2 = 0)
    (h2 : 2 ≤ n1) :
    lowerInputs last x (n1 + n2) =
      lowerInputs last x n1 ++ lowerInputs (x (n1 - 1)) (fun j => x (n1 + j)) n2 := by
  simp only [lowerInputs]
  rw [show (n1 + n2) / 2 = n1 / 2 + n2 / 2 by omega, List.range_add, List.map_append, List.map_map]
  congr 1
  refine List.map_congr_left fun m _ => ?_
  simp only [Function.comp_apply]
  rw [if_neg (by omega)]
  split
  · exact congrArg x (by omega)
  · exact congrArg x (by omega)

/-- A stream and how it is cut (R185): `s` holds the joined frame, `s1` its first part, `s2` its second
part with the context the first part left. -/
structure FrameCut (s s1 s2 : State) (n1 n2 c : Nat) : Prop where
  even : n1 % 2 = 0
  two_le : 2 ≤ n1
  cfg_joined : s.cfg = s1.cfg
  cfg_second : s2.cfg = s1.cfg
  ctx_joined : s.ctx c = s1.ctx c
  ctx_second : s2.ctx c = s1.decimatedCtx n1 c
  first : ∀ j, j < n1 → s.sample j = s1.sample j
  second : ∀ j, j < n2 → s.sample (n1 + j) = s2.sample j

section Cut

variable {s s1 s2 : State} {n1 n2 c : Nat}

theorem FrameCut.upperBranch (h : FrameCut s s1 s2 n1 n2 c) :
    s.upperBranch (n1 + n2) c =
      ((s1.upperBranch n1 c).1 ++ (s2.upperBranch n2 c).1, (s2.upperBranch n2 c).2) := by
  obtain ⟨hu0, hu1, -⟩ := s1.toInt_decimatedCtx c h.two_le
  have hfirst := State.upperBranch_congr h.cfg_joined h.ctx_joined h.first
  rw [← hfirst] at hu0 hu1 ⊢
  simp only [State.upperBranch, upperInputs_add _ _ h.even, branch_append, h.cfg_second,
    ← h.cfg_joined, h.ctx_second, hu0, hu1, upperInputs_congr h.second]

theorem FrameCut.lowerBranch (h : FrameCut s s1 s2 n1 n2 c) :
    s.lowerBranch (n1 + n2) c =
      ((s1.lowerBranch n1 c).1 ++ (s2.lowerBranch n2 c).1, (s2.lowerBranch n2 c).2) := by
  obtain ⟨-, -, hl0, hl1, hcarry⟩ := s1.toInt_decimatedCtx c h.two_le
  have hfirst := State.lowerBranch_congr h.cfg_joined h.ctx_joined h.first
  rw [← hfirst] at hl0 hl1 ⊢
  rw [← h.first _ (by have := h.two_le; omega)] at hcarry
  simp only [State.lowerBranch, lowerInputs_add _ _ _ h.even h.two_le, branch_append, h.cfg_second,
    ← h.cfg_joined, h.ctx_second, hl0, hl1, hcarry, lowerInputs_congr _ h.second,
    Int.mul_ediv_cancel _ (show (65536 : Int) ≠ 0 by decide)]

theorem FrameCut.decimatedCtx (h : FrameCut s s1 s2 n1 n2 c) (hn2 : 0 < n2) :
    s.decimatedCtx (n1 + n2) c = s2.decimatedCtx n2 c := by
  have hvalid : (s.ctx c).valid = (s2.ctx c).valid := by
    rw [h.ctx_joined, h.ctx_second, State.decimatedCtx]
  have hlast : s.sample (n1 + n2 - 1) = s2.sample (n2 - 1) := by
    rw [Nat.add_sub_assoc hn2, h.second _ (by omega)]
  simp only [State.decimatedCtx, h.upperBranch, h.lowerBranch, hvalid, hlast]

theorem FrameCut.decimatedSample_first (h : FrameCut s s1 s2 n1 n2 c) {m : Nat} (hm : m < n1 / 2) :
    s.decimatedSample (n1 + n2) c m = s1.decimatedSample n1 c m := by
  simp only [State.decimatedSample, h.upperBranch, h.lowerBranch]
  rw [List.getD_append _ _ _ _ (by rwa [State.lowerBranch_length]),
    List.getD_append _ _ _ _ (by rwa [State.upperBranch_length])]

theorem FrameCut.decimatedSample_second (h : FrameCut s s1 s2 n1 n2 c) (m : Nat) :
    s.decimatedSample (n1 + n2) c (n1 / 2 + m) = s2.decimatedSample n2 c m := by
  simp only [State.decimatedSample, h.upperBranch, h.lowerBranch]
  rw [List.getD_append_right _ _ _ _ (by rw [State.lowerBranch_length]; omega),
    List.getD_append_right _ _ _ _ (by rw [State.upperBranch_length]; omega),
    State.lowerBranch_length, State.upperBranch_length, Nat.add_sub_cancel_left]

end Cut

/-- Settles O32: the branches of the joined frame are those of its parts, one after the other, since the
context between them loses nothing. -/
theorem frameCutIndependence : Obligations.FrameCutIndependence := by
  intro s1 s2 s t1 t2 t n1 n2 c hcfg hcfg2 hcfg3 hlegal1 heven2 hn2 hfit hctx hfirst hsecond
    h1 hctx2 h2 h
  obtain ⟨-, -, ⟨-, hnctx⟩, -⟩ := hcfg
  cases eq_decimated_of_exec hlegal1 h1
  obtain ⟨hc, heven1, hn1, -, hvalid⟩ := hlegal1
  rw [s1.ctx_decimated (by omega) (by omega), if_pos rfl] at hctx2
  have hcut : FrameCut s s1 s2 n1 n2 c :=
    ⟨heven1, hn1, hcfg3, hcfg2, hctx, hctx2, hfirst, hsecond⟩
  have hlegal2 : DecimLegal s2 n2 c := by
    rw [DecimLegal, hcfg2, hctx2]
    exact ⟨hc, heven2, hn2, by omega, hvalid⟩
  have hlegal : DecimLegal s (n1 + n2) c := by
    rw [DecimLegal, hcfg3, hctx]
    exact ⟨hc, by omega, by omega, hfit, hvalid⟩
  cases eq_decimated_of_exec hlegal2 h2
  cases eq_decimated_of_exec hlegal h
  refine ⟨?_, fun m hm => ?_, fun m hm => ?_⟩
  · rw [s.ctx_decimated (by omega) (by omega), s2.ctx_decimated (by omega) (by omega), if_pos rfl,
      if_pos rfl, hcut.decimatedCtx (by omega)]
  · rw [s.ymem_decimated c (by omega), s1.ymem_decimated c hm, hcut.decimatedSample_first hm]
  · rw [s.ymem_decimated c (by omega), s2.ymem_decimated c hm, hcut.decimatedSample_second]

/-! ### Zero coefficients (R186) -/

/-- With coefficient 0 a section answers what its accumulator holds and keeps the sample (R186). -/
theorem apSection_zero_coef {s acc : Int} (hs : -32768 ≤ s ∧ s ≤ 32767)
    (hacc : -2147483648 ≤ acc ∧ acc ≤ 2147483647) :
    apSection s 0 acc = (acc / 65536, s * 65536) := by
  obtain ⟨hlow, hhigh⟩ := hacc
  obtain ⟨hh, hh'⟩ := asr16_range hlow hhigh
  have hmul (v : Int) : mulrs16 v 0 = 0 := by rw [mulrs16, Int.mul_zero]; rfl
  simp only [apSection, hmul, Int.neg_zero, Int.zero_mul, satAdd32, Int.zero_add,
    sat32_of_range hlow hhigh, trunc16_of_range hh hh']
  rw [asr_16, sat32_of_range (by omega) (by omega)]

/-- With zero coefficients a branch is a delay by two samples: first come the high halves of the
accumulators, then the inputs (R173, R186). -/
theorem branch_zero_coefs (xs : List Int) : ∀ acc0 acc1 : Int,
    (∀ v ∈ xs, -32768 ≤ v ∧ v ≤ 32767) → (-2147483648 ≤ acc0 ∧ acc0 ≤ 2147483647) →
    (-2147483648 ≤ acc1 ∧ acc1 ≤ 2147483647) →
    (branch 0 0 acc0 acc1 xs).1 = (acc1 / 65536 :: acc0 / 65536 :: xs).take xs.length := by
  induction xs with
  | nil => exact fun _ _ _ _ _ => rfl
  | cons v vs ih =>
    intro acc0 acc1 hxs hacc0 hacc1
    obtain ⟨hv, hvs⟩ := List.forall_mem_cons.1 hxs
    have hstep : apSections 0 0 v acc0 acc1 = (acc1 / 65536, v * 65536, acc0 / 65536 * 65536) := by
      rw [apSections, apSection_zero_coef hv hacc0, apSection_zero_coef (by omega) hacc1]
    simp only [branch, hstep]
    rw [ih _ _ hvs (by omega) (by omega), List.length_cons, List.take_succ_cons,
      Int.mul_ediv_cancel _ (by decide), Int.mul_ediv_cancel _ (by decide)]

/-- Output `m` of such a branch from zero accumulators is input `m - 2` (R186). -/
theorem branch_zero_coefs_getD {xs : List Int} (hxs : ∀ v ∈ xs, -32768 ≤ v ∧ v ≤ 32767) {m : Nat}
    (hm : m < xs.length) :
    (branch 0 0 0 0 xs).1.getD m 0 = if 2 ≤ m then xs.getD (m - 2) 0 else 0 := by
  rw [branch_zero_coefs xs 0 0 hxs (by decide) (by decide), List.getD_eq_getElem?_getD,
    List.getElem?_take_of_lt hm]
  match m with
  | 0 | 1 => rfl
  | m + 2 => simp [List.getD_eq_getElem?_getD]

theorem upperInputs_getD (x : Nat → Int) {n m : Nat} (h : m < n / 2) :
    (upperInputs x n).getD m 0 = x (2 * m) := by
  simp [upperInputs, List.getD_eq_getElem?_getD, h]

theorem lowerInputs_getD (last : Int) (x : Nat → Int) {n m : Nat} (h : m < n / 2) :
    (lowerInputs last x n).getD m 0 = if m = 0 then last else x (2 * m - 1) := by
  simp [lowerInputs, List.getD_eq_getElem?_getD, h]

/-- On a zeroed context the upper branch starts from zero accumulators (R201). -/
theorem State.upperBranch_of_zeroed {s : State} {n c : Nat} (h : s.ctx c = ApContext.zeroed) :
    s.upperBranch n c =
      branch s.cfg.apUpper0 s.cfg.apUpper1 0 0 (upperInputs s.sample n) := by
  rw [State.upperBranch, h]
  rfl

/-- On a zeroed context the lower branch starts from zero accumulators and a zero sample (R201). -/
theorem State.lowerBranch_of_zeroed {s : State} {n c : Nat} (h : s.ctx c = ApContext.zeroed) :
    s.lowerBranch n c =
      branch s.cfg.apLower0 s.cfg.apLower1 0 0 (lowerInputs 0 s.sample n) := by
  rw [State.lowerBranch, h]
  rfl

/-- The upper branch delays the even samples by four samples of the frame (R186). -/
theorem State.upperBranch_zero_coefs_getD {s : State} {n c m : Nat} (h : s.ctx c = ApContext.zeroed)
    (h0 : s.cfg.apUpper0 = 0) (h1 : s.cfg.apUpper1 = 0) (hm : m < n / 2) :
    (s.upperBranch n c).1.getD m 0 = if 4 ≤ 2 * m then s.sample (2 * m - 4) else 0 := by
  have hrange : ∀ v ∈ upperInputs s.sample n, -32768 ≤ v ∧ v ≤ 32767 :=
    List.forall_mem_map.2 fun i _ => sample_range s (2 * i)
  rw [State.upperBranch_of_zeroed h, h0, h1, branch_zero_coefs_getD hrange (by simpa using hm),
    upperInputs_getD _ (by omega), Nat.mul_sub]
  simp only [show 4 ≤ 2 * m ↔ 2 ≤ m by omega]

/-- The lower branch delays the odd samples by four samples and the carry, which is one more (R186). -/
theorem State.lowerBranch_zero_coefs_getD {s : State} {n c m : Nat} (h : s.ctx c = ApContext.zeroed)
    (h0 : s.cfg.apLower0 = 0) (h1 : s.cfg.apLower1 = 0) (hm : m < n / 2) :
    (s.lowerBranch n c).1.getD m 0 = if 5 ≤ 2 * m then s.sample (2 * m - 5) else 0 := by
  have hrange : ∀ v ∈ lowerInputs 0 s.sample n, -32768 ≤ v ∧ v ≤ 32767 :=
    List.forall_mem_map.2 fun i _ => by
      split
      · decide
      · exact sample_range s (2 * i - 1)
  rw [State.lowerBranch_of_zeroed h, h0, h1, branch_zero_coefs_getD hrange (by simpa using hm),
    lowerInputs_getD _ _ (by omega)]
  by_cases h5 : 5 ≤ 2 * m
  · rw [if_pos (by omega), if_neg (by omega), if_pos h5]
    exact congrArg s.sample (by omega)
  · rw [if_neg h5, if_pos (show m - 2 = 0 by omega), ite_self]

/-- Settles O34: a zero coefficient leaves the accumulator alone, and each branch delays by two samples
of its own. -/
theorem zeroCoefficientsDelay : Obligations.ZeroCoefficientsDelay := by
  refine ⟨fun s acc hs hs' hacc hacc' => apSection_zero_coef ⟨hs, hs'⟩ ⟨by omega, by omega⟩, ?_⟩
  intro s t n c _ hlegal hctx hu0 hu1 hl0 hl1 h m hm
  rw [eq_decimated_of_exec hlegal h, s.toInt_ymem_decimated c hm, State.decimatedSample,
    State.lowerBranch_zero_coefs_getD hctx hl0 hl1 hm,
    State.upperBranch_zero_coefs_getD hctx hu0 hu1 hm]

/-! ### Zeros (R190) -/

/-- A section keeps the value 0 at rest (R172, R190). -/
theorem apSection_zero (a : Int) : apSection 0 a 0 = (0, 0) := by
  have hmul (b : Int) : mulrs16 0 b = 0 := by rw [mulrs16, Int.zero_mul]; rfl
  have hsum : satAdd32 (0 * 2) 0 = 0 := by decide
  have hhigh : asr 0 16 = 0 := by decide
  have htrunc : trunc16 0 = 0 := by decide
  simp only [apSection, hmul, hsum, hhigh, htrunc, Int.zero_mul 65536]

/-- A branch at rest answers zeros to zeros and stays at rest (R173, R190). -/
theorem branch_replicate_zero (a0 a1 : Int) (k : Nat) :
    branch a0 a1 0 0 (List.replicate k 0) = (List.replicate k 0, 0, 0) := by
  induction k with
  | zero => rfl
  | succ k ih => simp only [List.replicate_succ, branch, apSections, apSection_zero, ih]

theorem upperInputs_zero (n : Nat) : upperInputs (fun _ => 0) n = List.replicate (n / 2) 0 := by
  simp [upperInputs, List.map_const']

theorem lowerInputs_zero (n : Nat) : lowerInputs 0 (fun _ => 0) n = List.replicate (n / 2) 0 := by
  simp [lowerInputs, List.map_const']

/-- Settles O35: both branches are at rest and answer zeros. -/
theorem zeroFrameLeavesZeroState : Obligations.ZeroFrameLeavesZeroState := by
  intro s n c hcfg hlegal hctx hzero
  have hupper : s.upperBranch n c = (List.replicate (n / 2) 0, 0, 0) := by
    rw [State.upperBranch_of_zeroed hctx, upperInputs_congr hzero, upperInputs_zero,
      branch_replicate_zero]
  have hlower : s.lowerBranch n c = (List.replicate (n / 2) 0, 0, 0) := by
    rw [State.lowerBranch_of_zeroed hctx, lowerInputs_congr _ hzero, lowerInputs_zero,
      branch_replicate_zero]
  have hrun := exec_decim_of_legal hlegal
  obtain ⟨hc, -, hn, hnmax, -⟩ := hlegal
  refine ⟨_, hrun, rfl, State.toNat_outlen_decimated c hcfg hnmax, ?_, fun m hm => ?_⟩
  · obtain ⟨-, -, ⟨-, hnctx⟩, -⟩ := hcfg
    rw [s.ctx_decimated (by omega) (by omega), if_pos rfl, State.decimatedCtx, hupper, hlower, hctx,
      hzero _ (by omega)]
    rfl
  · rw [s.ymem_decimated c hm, State.decimatedSample, hupper, hlower, List.getD_replicate _ hm]
    rfl

end Sys2Proof.Machine
end

section
/-! PROOF of O38, O39 and O52 (rules R175, R200 to R203): the check of `APINIT`, the context it leaves, and
that no command clears a valid bit. -/

namespace Sys2Proof.Machine

open Sys2Proof

/-! ### `APINIT` (R200 to R202) -/

/-- `APINIT` by its check and its effect (R200). -/
theorem exec_apinit (c : Nat) (s : State) :
    exec (.apinit c) s = s.command (encode (.apinit c)) (apinitViolated s.cfg c)
      fun s => s.setCtx c ApContext.zeroed := rfl

/-- A context that does not exist violates the only check (R200). -/
theorem apinitViolated_eq_ctx {cfg : Config} {c : Nat} (hc : cfg.nctx ≤ c) :
    apinitViolated cfg c = some .ctx := if_pos hc

/-- On an existing context `APINIT` completes (R200, R201). -/
theorem exec_apinit_of_lt {s : State} {c : Nat} (hc : c < s.cfg.nctx) :
    exec (.apinit c) s = .next (s.setCtx c ApContext.zeroed).succeed := by
  rw [exec_apinit, apinitViolated_eq_none.2 hc, State.command_none]

/-- Settles O39: a missing context violates the check, and a word with a non-zero must-be-zero field is in
no row of the opcode map. -/
theorem apinitPreconditions : Obligations.ApinitPreconditions := by
  refine ⟨fun s c hc => ?_, fun s w hopc hzero => ?_⟩
  · rw [exec_apinit, apinitViolated_eq_ctx hc, State.command_some]
  · rcases hzero with hzero4 | hzero16
    · exact mustBeZeroFieldsAreChecked s w (.inl ⟨by simp [hopc], hzero4⟩)
    · exact mustBeZeroFieldsAreChecked s w (.inr (.inl ⟨hopc, hzero16⟩))

/-- A carry cell of 0 puts 0 in front of the frame (R175, R202). -/
theorem workingBuffer_zero_getD (frame : List Int) : (workingBuffer 0 frame).getD 0 1 = 0 := by
  rw [workingBuffer, List.getD_cons_zero]
  decide

/-- Settles O38: the next state has the zeroed context at `c`, and `setCtx` and `succeed` leave the
rest. -/
theorem apinitZeroesItsContext : Obligations.ApinitZeroesItsContext := by
  intro s c hcfg hc
  obtain ⟨-, -, ⟨-, hnctx⟩, -⟩ := hcfg
  have hctx (d : Nat) : (s.setCtx c ApContext.zeroed).succeed.ctx d =
      if d = c then ApContext.zeroed else s.ctx d := by
    rw [State.ctx_succeed, s.ctx_setCtx (by omega)]
  have hzeroed := (hctx c).trans (if_pos rfl)
  refine ⟨_, exec_apinit_of_lt hc, ?_⟩
  rw [hzeroed]
  exact ⟨rfl, rfl, rfl, rfl, rfl, rfl, workingBuffer_zero_getD,
    fun d hd => (hctx d).trans (if_neg hd), rfl⟩

/-! ### The valid bits (R203) -/

/-- Replacing a context by an initialised one clears no valid bit. -/
theorem State.valid_setCtx {s : State} {c : Nat} (hc : c < 32) (hv : s.ctxs[c].valid = true) (d : Nat)
    {x : ApContext} (hx : x.valid = true) : (s.setCtx d x).ctxs[c].valid = true := by
  simp only [State.setCtx_ctxs, Vector.getElem_setIfInBounds]
  split
  · exact hx
  · exact hv

/-- `DECIM` writes the five cells of its context, not its valid bit (R180). -/
theorem decimate_valid (cfg : Config) (x : ApContext) (n : Nat) (frame : List Int) :
    (decimate cfg x n frame).2.valid = x.valid := rfl

/-- No command clears a valid bit: the two that write a context leave it initialised, `DECIM` because it
refuses one that is not (R171, R201, R203). -/
theorem exec_keeps_valid {i : Instr} {s t : State} {c : Nat} (hc : c < 32)
    (hv : s.ctxs[c].valid = true) (h : exec i s = .next t) : t.ctxs[c].valid = true := by
  rcases exec_cases h with ⟨_, rfl, -⟩ | ⟨_, _, -, -, rfl⟩ | ⟨_, _, -, -, -, rfl⟩ |
    ⟨n, d, -, ⟨-, -, -, -, hd⟩, rfl⟩ | ⟨d, -, -, rfl⟩ | ⟨-, _, rfl⟩
  · exact hv
  · exact hv
  · exact hv
  · exact State.valid_setCtx hc hv d ((decimate_valid _ _ _ _).trans hd)
  · exact State.valid_setCtx hc hv d rfl
  · exact hv

/-- Settles O52, by what a step can be: a failure and port traffic leave the contexts alone. -/
theorem onlyResetClearsAValidBit : Obligations.OnlyResetClearsAValidBit := by
  intro s t c hc h hreset hv
  rcases step_reset_command_or_traffic h with ⟨rest, hp, -⟩ | ⟨w, rest, -, hcmd⟩ | htraffic
  · exact absurd ⟨rest, hp⟩ hreset
  · rcases writeCmd_raise_or_complete hcmd with ⟨code, rfl⟩ | ⟨i, -, hrun, -⟩
    · exact hv
    · exact exec_keeps_valid (s := s.accept rest) hc hv hrun
  · simpa only [htraffic.ctxs] using hv

end Sys2Proof.Machine
end

section
/-! PROOF of O8 and O40 to O43 (rules R106, R211, R212, R214, R216 to R218, R235): the code a command ends
with is that of its first violated check, its checks and effects do not see the error record, and what
follows from both for a failed word that is written again. -/

namespace Sys2Proof.Machine

open Sys2Proof

/-- Settles O8, by the branch of a step for an empty script. -/
theorem idleBlockHoldsItsState : Obligations.IdleBlockHoldsItsState := by
  intro s hp
  simp only [step, hp]

/-! ### A write to `CMD` by what the word decodes to (R25, R96) -/

theorem writeCmd_of_command {w : Word} {i : Instr} (s : State) (hw : decodeWord w = .command i) :
    s.writeCmd w = exec i s := by
  simp only [State.writeCmd, hw]

theorem writeCmd_of_illegal {w : Word} {why : IllegalWord} (s : State)
    (hw : decodeWord w = .illegal why) : s.writeCmd w = .next (s.raise .illegal w) := by
  simp only [State.writeCmd, hw]

/-! ### The code a command ends with (R211, R212, R216) -/

/-- The codes of an error (R211). -/
theorem ErrorCode.number_range (code : ErrorCode) : 1 ≤ code.number ∧ code.number ≤ 5 := by
  cases code <;> decide

/-- Settles O40: a word that does not complete only raises a code, and a code's number is in `1 .. 5`. -/
theorem failedCommandWritesOnlyItsRecord : Obligations.FailedCommandWritesOnlyItsRecord := by
  intro s t w h hfail
  rcases writeCmd_raise_or_complete h with ⟨code, rfl⟩ | ⟨i, -, -, h0⟩
  · obtain ⟨hpos, hle⟩ := code.number_range
    exact ⟨code.number, hpos, hle, rfl⟩
  · exact absurd h0 hfail

/-- What `STATUS` holds after a command whose first violated check is `violated` (R26, R216). -/
def finalCode (violated : Option ErrorCode) : Nat := violated.elim 0 ErrorCode.number

/-- A command ends with the code of its first violated check (R107, R211). -/
theorem State.command_status {s t : State} {w : Word} {violated : Option ErrorCode}
    {effect : State → State} (h : s.command w violated effect = .next t) :
    t.status.toNat = finalCode violated := by
  rcases State.command_cases h with ⟨code, rfl, rfl⟩ | ⟨rfl, rfl⟩
  · rw [State.raise_status]
    cases code <;> rfl
  · rfl

/-- The codes of a list of possible checks. -/
theorem finalCode_mem {violated : Option ErrorCode} {checks : List (Option ErrorCode)}
    (h : violated ∈ checks) : finalCode violated ∈ checks.map finalCode :=
  List.mem_map_of_mem h

/-- Only `E_UNINIT` has the number 5 (R211). -/
theorem eq_uninit_of_finalCode {violated : Option ErrorCode} (h : finalCode violated = 5) :
    violated = some .uninit := by
  cases violated with
  | none => cases h
  | some code =>
    cases code with
    | uninit => rfl
    | illegal | ctx | len | order => cases h

/-- The checks of `ACORR` (R141, R212). -/
theorem acorrViolated_mem (cfg : Config) (n order : Nat) :
    acorrViolated cfg n order ∈ [none, some .len, some .order] := by
  unfold acorrViolated
  split
  · simp
  · split <;> simp

/-- The checks of `DECIM` (R171, R212). -/
theorem decimViolated_mem (s : State) (n c : Nat) :
    decimViolated s n c ∈ [none, some .ctx, some .len, some .uninit] := by
  unfold decimViolated
  split
  · simp
  · split
    · simp
    · split <;> simp

/-- The check of `APINIT` (R200, R212). -/
theorem apinitViolated_mem (cfg : Config) (c : Nat) :
    apinitViolated cfg c ∈ [none, some .ctx] := by
  unfold apinitViolated
  split <;> simp

/-- `ACORRV` has the codes of `ACORR`, and 1 exactly without lanes (R101, R150, R212). -/
theorem finalCode_acorrvViolated (cfg : Config) (n order : Nat) :
    finalCode (acorrvViolated cfg n order) ∈ [0, 1, 3, 4] ∧
      (finalCode (acorrvViolated cfg n order) = 1 ↔ cfg.lanes = 1) := by
  by_cases hlanes : cfg.lanes = 1
  · rw [acorrvViolated, if_pos hlanes]
    simp [finalCode, ErrorCode.number, hlanes]
  · have hmem : finalCode (acorrViolated cfg n order) ∈ [0, 3, 4] :=
      finalCode_mem (acorrViolated_mem cfg n order)
    rw [acorrvViolated_of_lanes hlanes]
    simp only [List.mem_cons, List.not_mem_nil, or_false] at hmem ⊢
    omega

/-- Settles O41, by the checks of each command; the helpers have none. -/
theorem codesEachCommandCanRaise : Obligations.CodesEachCommandCanRaise := by
  intro i s t h
  cases i with
  | acorr n order =>
    rw [exec_acorr] at h
    exact State.command_status h ▸ finalCode_mem (acorrViolated_mem s.cfg n order)
  | decim n c =>
    rw [exec_decim] at h
    exact State.command_status h ▸ finalCode_mem (decimViolated_mem s n c)
  | apinit c =>
    rw [exec_apinit] at h
    exact State.command_status h ▸ finalCode_mem (apinitViolated_mem s.cfg c)
  | acorrv n order =>
    rw [exec_acorrv] at h
    have hcode := finalCode_acorrvViolated s.cfg n order
    rwa [← State.command_status h] at hcode
  | sadd32 | sadd16 | trunc16 | mulrs16 | clz32 =>
    cases h
    rfl

/-! ### The error record is not read (R217) -/

/-- The state with another error record. -/
def State.withErrorRecord (s : State) (status esticky ecmd : Word) : State :=
  { s with status := status, esticky := esticky, ecmd := ecmd }

/-- `t` and `t'` differ in `ESTICKY` and `ECMD` at most. -/
def State.SameButSticky (t t' : State) : Prop := t' = { t with esticky := t'.esticky, ecmd := t'.ecmd }

/-- A command whose check and effect do not read the error record ends alike with any other (R217). -/
theorem State.command_withErrorRecord {s t : State} {w status esticky ecmd : Word}
    {violated : Option ErrorCode} {effect : State → State}
    (heffect : (effect s).succeed.SameButSticky
      (effect (s.withErrorRecord status esticky ecmd)).succeed)
    (h : s.command w violated effect = .next t) :
    ∃ t', (s.withErrorRecord status esticky ecmd).command w violated effect = .next t' ∧
      t.SameButSticky t' := by
  rcases State.command_cases h with ⟨code, rfl, rfl⟩ | ⟨rfl, rfl⟩
  · exact ⟨_, State.command_some _ w code effect, rfl⟩
  · exact ⟨_, State.command_none _ w effect, heffect⟩

/-- Every command runs as it would with any other error record (R217). -/
theorem exec_withErrorRecord {i : Instr} {s t : State} (status esticky ecmd : Word)
    (h : exec i s = .next t) :
    ∃ t', exec i (s.withErrorRecord status esticky ecmd) = .next t' ∧ t.SameButSticky t' := by
  cases i with
  | acorr | decim | apinit | acorrv =>
    simp only [exec, execAcorr, execDecim, execApinit, execAcorrv] at h ⊢
    refine State.command_withErrorRecord ?_ h
    exact rfl
  | sadd32 | sadd16 | trunc16 | mulrs16 | clz32 =>
    simp only [exec, execSadd32, execSadd16, execTrunc16, execMulrs16, execClz32,
      State.helper] at h ⊢
    refine State.command_withErrorRecord ?_ h
    exact rfl

/-- Every word written to `CMD`, legal or not, does what it would with any other error record (R217). -/
theorem writeCmd_withErrorRecord {s t : State} {w : Word} (status esticky ecmd : Word)
    (h : s.writeCmd w = .next t) :
    ∃ t', (s.withErrorRecord status esticky ecmd).writeCmd w = .next t' ∧ t.SameButSticky t' := by
  cases hw : decodeWord w with
  | command i =>
    rw [writeCmd_of_command _ hw] at h ⊢
    exact exec_withErrorRecord status esticky ecmd h
  | illegal why =>
    rw [writeCmd_of_illegal _ hw] at h ⊢
    cases h
    exact ⟨_, rfl, rfl⟩

/-- A word that succeeds leaves `ECMD` and `ESTICKY` (R217). -/
theorem writeCmd_success_keeps_record {s t : State} {w : Word} (h : s.writeCmd w = .next t)
    (h0 : t.status = 0) : t.ecmd = s.ecmd ∧ t.esticky = s.esticky := by
  rcases writeCmd_raise_or_complete h with ⟨code, rfl⟩ | ⟨i, -, hrun, -⟩
  · exact absurd h0 (State.raise_status_ne _ _ _)
  · obtain ⟨-, -, -, -, -, -, hrecord⟩ := exec_keeps hrun
    exact (hrecord h0).symm

/-- Settles O42: a success keeps the record, no command clears a sticky bit, and none reads the record. -/
theorem errorRecordDoesNotInfluenceCommands : Obligations.ErrorRecordDoesNotInfluenceCommands := by
  intro s t w status esticky ecmd h
  exact ⟨writeCmd_success_keeps_record h, (writeCmd_sticky h).1,
    writeCmd_withErrorRecord status esticky ecmd h⟩

/-! ### A failed word fails again, and the repair of `E_UNINIT` (R218) -/

/-- A failed command raises the same code wherever its checks see the same (R218). -/
theorem exec_raise_of_status_ne {i : Instr} {s t : State} (h : exec i s = .next t)
    (hfail : t.status ≠ 0) :
    ∃ code, t = s.raise code (encode i) ∧
      ∀ s' : State, s'.cfg = s.cfg →
        (∀ n c, i = .decim n c → (s'.ctx c).valid = (s.ctx c).valid) →
        exec i s' = .next (s'.raise code (encode i)) := by
  rcases exec_cases h with hraise | ⟨_, _, -, -, rfl⟩ | ⟨_, _, -, -, -, rfl⟩ |
    ⟨_, _, -, -, rfl⟩ | ⟨_, -, -, rfl⟩ | ⟨-, _, rfl⟩
  · exact hraise
  all_goals exact absurd rfl hfail

/-- A failed word fails with the same code wherever its checks see the same; an illegal one fails
everywhere (R96, R218). -/
theorem writeCmd_fails_again {s s' t t' : State} {w : Word} (hcfg : s'.cfg = s.cfg)
    (hvalid : ∀ n c, decodeWord w = .command (.decim n c) → (s'.ctx c).valid = (s.ctx c).valid)
    (h : s.writeCmd w = .next t) (hfail : t.status ≠ 0) (h' : s'.writeCmd w = .next t') :
    t'.status = t.status := by
  cases hw : decodeWord w with
  | command i =>
    rw [writeCmd_of_command _ hw] at h h'
    obtain ⟨code, rfl, hagain⟩ := exec_raise_of_status_ne h hfail
    have hraise := hagain s' hcfg fun n c hi => hvalid n c (hi ▸ hw)
    cases h'.symm.trans hraise
    rfl
  | illegal why =>
    rw [writeCmd_of_illegal _ hw] at h h'
    cases h
    cases h'
    rfl

/-- Behind `E_UNINIT` the context exists and the length is good (R171, R213). -/
theorem operands_of_decimViolated_eq_uninit {s : State} {n c : Nat}
    (h : decimViolated s n c = some .uninit) :
    c < s.cfg.nctx ∧ n % 2 = 0 ∧ 2 ≤ n ∧ n ≤ s.cfg.nmax := by
  by_cases hc : c < s.cfg.nctx
  · by_cases hn : n % 2 = 0 ∧ 2 ≤ n ∧ n ≤ s.cfg.nmax
    · exact ⟨hc, hn⟩
    · cases (decimViolated_eq_len hc hn).symm.trans h
  · cases (decimViolated_eq_ctx hc).symm.trans h

/-- After `APINIT` of its context `DECIM` sees operands that were good but for the context (R201, R218). -/
theorem decimLegal_of_initialised {s : State} {n c : Nat} (hctx : c < 32)
    (h : c < s.cfg.nctx ∧ n % 2 = 0 ∧ 2 ≤ n ∧ n ≤ s.cfg.nmax) :
    DecimLegal (s.setCtx c ApContext.zeroed).succeed n c := by
  obtain ⟨hc, heven, hpos, hmax⟩ := h
  refine ⟨hc, heven, hpos, hmax, ?_⟩
  rw [State.ctx_succeed, s.ctx_setCtx hctx, if_pos rfl]
  rfl

/-- `APINIT` repairs a `DECIM` that failed with `E_UNINIT` (R218). -/
theorem apinit_repairs_decim {s t : State} {n c : Nat} (hlegal : s.cfg.Legal)
    (h : exec (.decim n c) s = .next t) (hcode : t.status.toNat = 5) :
    ∃ t1 t2, exec (.apinit c) t = .next t1 ∧ exec (.decim n c) t1 = .next t2 ∧ t2.status = 0 := by
  rw [exec_decim] at h
  have hviolated := eq_uninit_of_finalCode ((State.command_status h).symm.trans hcode)
  rw [hviolated, State.command_some] at h
  cases h
  have hoperands := operands_of_decimViolated_eq_uninit hviolated
  obtain ⟨-, -, ⟨-, hnctx⟩, -⟩ := hlegal
  have hctx : c < 32 := by omega
  exact ⟨_, _, exec_apinit_of_lt hoperands.1,
    exec_decim_of_legal (decimLegal_of_initialised hctx hoperands), State.decimated_status _ n c⟩

/-- Settles O43: the checks see the same again, and `APINIT` mends the one check behind `E_UNINIT`. -/
theorem failuresAreReproducible : Obligations.FailuresAreReproducible :=
  ⟨fun _ _ _ _ _ => writeCmd_fails_again, fun _ _ _ _ => apinit_repairs_decim⟩

end Sys2Proof.Machine
end

section
/-! PROOF of O9 (rules R64, R211, R262): every operation answers a next state. A command is validate, then
execute and complete, and both ends are next states; a refused access is one too. -/

namespace Sys2Proof.Machine

open Sys2Proof

/-- Validate, then execute and complete: whatever the check says, the answer is a next state (R107). -/
theorem State.command_completes (s : State) (w : Word) (violated : Option ErrorCode)
    (effect : State → State) : ∃ t, s.command w violated effect = .next t := by
  cases violated with
  | none => exact ⟨_, s.command_none w effect⟩
  | some code => exact ⟨_, s.command_some w code effect⟩

/-- Every command completes: four by their check and their effect, the helpers without a check (R107,
R135, R262). -/
theorem exec_completes (i : Instr) (s : State) : ∃ t, exec i s = .next t := by
  cases i with
  | acorr n order => exact exec_acorr n order s ▸ s.command_completes _ _ _
  | decim n c => exact exec_decim n c s ▸ s.command_completes _ _ _
  | apinit c => exact exec_apinit c s ▸ s.command_completes _ _ _
  | acorrv n order => exact exec_acorrv n order s ▸ s.command_completes _ _ _
  | sadd32 | sadd16 | trunc16 | mulrs16 | clz32 => exact ⟨_, rfl⟩

/-- Every word written to `CMD` completes, legal or not (R25, R96). -/
theorem writeCmd_completes (s : State) (w : Word) : ∃ t, s.writeCmd w = .next t := by
  rcases State.writeCmd_cases s w with ⟨i, -, hexec⟩ | ⟨_, -, hraise⟩
  · rw [hexec]
    exact exec_completes i s
  · exact ⟨_, hraise⟩

/-- A write to `CMD` leaves 0 or the number of an error in `STATUS` (R26, R211). -/
theorem writeCmd_status_le {s t : State} {w : Word} (h : s.writeCmd w = .next t) :
    t.status.toNat ≤ 5 := by
  rcases writeCmd_raise_or_complete h with ⟨code, rfl⟩ | ⟨_, -, -, h0⟩
  · rw [State.raise_status]
    cases code <;> decide
  · simp [h0]

/-- Every write the port is given is done or refused, and both are next states (R63, R64). -/
theorem portWrite_completes (s : State) (off n : Nat) (v : Word) :
    ∃ t, s.portWrite off n v = .next t := by
  rcases s.portWrite_cases off n v with ⟨-, hcmd⟩ | ⟨-, hopa⟩ | ⟨-, hopb⟩ | ⟨_, -, hxmem⟩ | hrefused
  · rw [hcmd]
    exact writeCmd_completes s v
  · exact ⟨_, hopa⟩
  · exact ⟨_, hopb⟩
  · exact ⟨_, hxmem⟩
  · exact ⟨_, hrefused⟩

/-- A host operation of any kind is performed to its end (R60, R240). -/
theorem perform_completes (s : State) (op : HostOp) : ∃ t, s.perform op = .next t := by
  cases op with
  | read => exact ⟨_, rfl⟩
  | write off n v => exact portWrite_completes s off n v
  | reset => exact ⟨_, rfl⟩

/-- The block never stops: an empty script holds the state, and each operation is performed (R235, R262). -/
theorem step_completes (s : State) : ∃ t, step s = .next t := by
  cases hp : s.pending with
  | nil => exact ⟨s, idleBlockHoldsItsState s hp⟩
  | cons op rest =>
    rw [step_of_pending hp]
    exact perform_completes (s.accept rest) op

/-- Settles O9, by the cases of a write to `CMD` and of a step. -/
theorem everyOperationCompletes : Obligations.EveryOperationCompletes := by
  refine ⟨fun s w => ?_, step_completes⟩
  obtain ⟨t, h⟩ := writeCmd_completes s w
  exact ⟨t, h, writeCmd_status_le h⟩

end Sys2Proof.Machine
end
